-- ==== Sys2Proof/Word.lean ====
section
/-! DEFINITION. The plain word types of the CoffeeTime CORE and the forms in which a word can be presented to it. -/

namespace Sys2Proof

/-- A byte: an address, a command, or one field of a `Time4` (10_state.md R10, R17). -/
abbrev Byte := BitVec 8

/-- A timestamp in microseconds, TSW = 32 bits, wrapping modulo 2^32 (10_state.md R11, 60_exceptions.md R214). -/
abbrev Timestamp := BitVec 32

/-- A gap: the elapsed time between two timestamps, modulo 2^32 (00_scope.md R8). -/
abbrev Gap := BitVec 32

/-- `dt(a, b) = (a - b) mod 2^TSW` (00_scope.md R8). -/
def dt (a b : Timestamp) : Gap := a - b

/-- The two execution contexts (60_exceptions.md R213). -/
inductive Context where
  | interrupt
  | loop
  deriving DecidableEq, Repr

/-- A word as it is presented to the machine: one form for each of the encodings of 30_encoding.md R60.
Only `op` words are words the environment applies (R71); the other forms spell the symbols, the frame word,
the command byte and the key codes that EDGE and POLL interpret (log 8, log 10). -/
inductive CodeWord where
  /-- Format OP: the 72-bit operation word (30_encoding.md R71). -/
  | op (w : BitVec 72)
  /-- Format NEC: the 32-bit frame word (30_encoding.md R63). -/
  | frame (w : BitVec 32)
  /-- Format CMD: a command byte, looked up in KEYMAP (30_encoding.md R65). -/
  | command (c : Byte)
  /-- Format KEY: a LogicalKey code (30_encoding.md R67), published by the interrupt context or taken by the loop. -/
  | key (ctx : Context) (code : BitVec 5)
  /-- Format SYMBOL: the gap that closes a data bit, measured from the last stored edge (30_encoding.md R61, R62). -/
  | dataGap (g : Gap)
  /-- Format SYMBOL: the gap from cell 0 to the second edge of a buffer (30_encoding.md R61, row RPT). -/
  | firstGap (g : Gap)
  deriving DecidableEq, Repr

/-- The format names of spec/opcode_table.json. -/
inductive Format where
  | op
  | nec
  | symbol
  | cmd
  | key
  deriving DecidableEq, Repr

/-- The format a presented word belongs to (30_encoding.md R60). -/
def CodeWord.format : CodeWord → Format
  | .op _ => .op
  | .frame _ => .nec
  | .command _ => .cmd
  | .key _ _ => .key
  | .dataGap _ => .symbol
  | .firstGap _ => .symbol

end Sys2Proof
end

