-- ==== Sys2Proof/Syntax.lean ====
section
/-! DEFINITION. The syntax: the closed enumerations the spec names, and `Instr` with one constructor per row of
spec/opcode_table.json. -/

namespace Sys2Proof

/-- The closed set of 21 logical keys (30_encoding.md R67). -/
inductive LogicalKey where
  | digit0 | digit1 | digit2 | digit3 | digit4 | digit5 | digit6 | digit7 | digit8 | digit9
  | power | menu | test | plus | minus | back | previous | play | next | clear | unrecognized
  deriving DecidableEq, Repr

/-- Frame kind: Normal or Repeat (30_encoding.md R68). -/
inductive FrameKind where
  | normal
  | repeated
  deriving DecidableEq, Repr

/-- Preparation mode: Now or Scheduled (30_encoding.md R68). -/
inductive Mode where
  | now
  | scheduled
  deriving DecidableEq, Repr

/-- A `Time4`: four unsigned 8-bit fields, no value excluded (00_scope.md R8, 30_encoding.md R73). -/
structure Time4 where
  day : Byte
  month : Byte
  hour : Byte
  minute : Byte
  deriving DecidableEq, Repr

/-- One constructor per row of spec/opcode_table.json. The first nine are the operations of 00_scope.md R6; the
next four are EDGE's sub-operations; the next four are the pulse-distance symbols, each with the gap that spells
it; the last 21 are the keys that POLL's take delivers. -/
inductive Instr where
  -- operations (30_encoding.md R72)
  | nop
  | edge (t : Timestamp)
  | poll (now : Time4)
  | prepDone
  | schedCfg (time : Time4) (valid : Bool)
  | mboxTake
  | validate (target current : Time4)
  | reached (target current : Time4)
  | reset
  -- sub-operations of EDGE (00_scope.md R6)
  | decode (ncmd cmd naddr addr : Byte)
  | repeatCode (g : Gap)
  | resolve (command : Byte)
  | publish (k : LogicalKey)
  -- pulse-distance symbols (30_encoding.md R61, R62)
  | symBit0 (g : Gap)
  | symBit1 (g : Gap)
  | symBad (g : Gap)
  | symStale (g : Gap)
  -- keys taken by the loop (43_workflow.md R178)
  | keyDigit0 | keyDigit1 | keyDigit2 | keyDigit3 | keyDigit4
  | keyDigit5 | keyDigit6 | keyDigit7 | keyDigit8 | keyDigit9
  | keyPower | keyMenu | keyTest | keyPlus | keyMinus | keyBack
  | keyPrevious | keyPlay | keyNext | keyClear | keyUnrecognized
  deriving DecidableEq, Repr

/-- The KEY row of a logical key. -/
def Instr.ofKey : LogicalKey → Instr
  | .digit0 => .keyDigit0 | .digit1 => .keyDigit1 | .digit2 => .keyDigit2 | .digit3 => .keyDigit3
  | .digit4 => .keyDigit4 | .digit5 => .keyDigit5 | .digit6 => .keyDigit6 | .digit7 => .keyDigit7
  | .digit8 => .keyDigit8 | .digit9 => .keyDigit9 | .power => .keyPower | .menu => .keyMenu
  | .test => .keyTest | .plus => .keyPlus | .minus => .keyMinus | .back => .keyBack
  | .previous => .keyPrevious | .play => .keyPlay | .next => .keyNext | .clear => .keyClear
  | .unrecognized => .keyUnrecognized

/-- The context that applies an operation, where 00_scope.md R6 gives it one: EDGE the interrupt context, the other
operations of the environment but RESET the loop context. RESET, and the rows the environment never applies, have none. -/
def Instr.context : Instr → Option Context
  | .edge _ => some .interrupt
  | .nop => some .loop
  | .poll _ => some .loop
  | .prepDone => some .loop
  | .schedCfg _ _ => some .loop
  | .mboxTake => some .loop
  | .validate _ _ => some .loop
  | .reached _ _ => some .loop
  | .reset => none
  | .decode _ _ _ _ => none
  | .repeatCode _ => none
  | .resolve _ => none
  | .publish _ => none
  | .symBit0 _ => none
  | .symBit1 _ => none
  | .symBad _ => none
  | .symStale _ => none
  | .keyDigit0 => none | .keyDigit1 => none | .keyDigit2 => none | .keyDigit3 => none | .keyDigit4 => none
  | .keyDigit5 => none | .keyDigit6 => none | .keyDigit7 => none | .keyDigit8 => none | .keyDigit9 => none
  | .keyPower => none | .keyMenu => none | .keyTest => none | .keyPlus => none | .keyMinus => none
  | .keyBack => none | .keyPrevious => none | .keyPlay => none | .keyNext => none | .keyClear => none
  | .keyUnrecognized => none

/-- The format column of spec/opcode_table.json. -/
def Instr.format : Instr → Format
  | .nop => .op
  | .edge _ => .op
  | .poll _ => .op
  | .prepDone => .op
  | .schedCfg _ _ => .op
  | .mboxTake => .op
  | .validate _ _ => .op
  | .reached _ _ => .op
  | .reset => .op
  | .decode _ _ _ _ => .nec
  | .repeatCode _ => .symbol
  | .resolve _ => .cmd
  | .publish _ => .key
  | .symBit0 _ => .symbol
  | .symBit1 _ => .symbol
  | .symBad _ => .symbol
  | .symStale _ => .symbol
  | .keyDigit0 => .key | .keyDigit1 => .key | .keyDigit2 => .key | .keyDigit3 => .key | .keyDigit4 => .key
  | .keyDigit5 => .key | .keyDigit6 => .key | .keyDigit7 => .key | .keyDigit8 => .key | .keyDigit9 => .key
  | .keyPower => .key | .keyMenu => .key | .keyTest => .key | .keyPlus => .key | .keyMinus => .key
  | .keyBack => .key | .keyPrevious => .key | .keyPlay => .key | .keyNext => .key | .keyClear => .key
  | .keyUnrecognized => .key

end Sys2Proof
end

