-- ==== Sys2Proof/Config.lean ====
section
/-! DEFINITION. The parameters of 00_scope.md R4 and R5, and the free values, which are opaque: nothing can be proved
of one of them that would not hold of every value. -/

namespace Sys2Proof.Config

/-- EDGE_CAP, the capacity of the EdgeBuffer (00_scope.md R4). -/
abbrev edgeCap : Nat := 34
/-- T_SILENCE in microseconds (00_scope.md R4). -/
abbrev tSilence : Nat := 15000
/-- T_REPEAT in microseconds (00_scope.md R4). -/
abbrev tRepeat : Nat := 11250
/-- T_BIT0 in microseconds (00_scope.md R4). -/
abbrev tBit0 : Nat := 1125
/-- T_BIT1 in microseconds (00_scope.md R4). -/
abbrev tBit1 : Nat := 2250
/-- TOL in percent (00_scope.md R4). -/
abbrev tolPercent : Nat := 15
/-- N_DATA, data bits per frame (00_scope.md R4). -/
abbrev nData : Nat := 32
/-- N_KEYMAP, explicit entries of the key table (00_scope.md R4). -/
abbrev nKeymap : Nat := 16
/-- CUPS_MIN (00_scope.md R4). -/
abbrev cupsMin : Nat := 1
/-- CUPS_MAX (00_scope.md R4). -/
abbrev cupsMax : Nat := 5
/-- HDR_NOMINAL, the header gap of the pseudo-operations only (30_encoding.md R77, 93_implementation_defined.md U18).
Mark: PRESUMED (the spec takes it from general knowledge, K1; log 23); no operation depends on it. -/
abbrev hdrNominal : Timestamp := 13500

/-- The raw contents of the open parameter KEYMAP (30_encoding.md R65, log 4). Opaque: CT does not list the entries.
`Machine/Keys.lean` reads it only through `keymap`, which is always a legal table. -/
opaque keymapRaw : List (Byte × LogicalKey)

/-- Free bytes: LAST_ADDR and LAST_CMD after a RESET operation, "unspecified" by 10_state.md R25 (log 3). -/
opaque freeByte : Nat → Byte

/-- Free key codes: MB_KEY after a RESET operation, "unspecified" by 10_state.md R25 (log 3). -/
opaque freeKeyCode : Nat → BitVec 5

/-- Which of an EDGE and a loop-context operation presented together is applied first: either may be
(20_memory.md R50, log 6). True: the EDGE. -/
opaque edgeFirst : Nat → Bool

end Sys2Proof.Config
end

