-- ==== Sys2Proof/WellFormed.lean ====
section
/-! DEFINITION. Well-formedness of instructions and of the KEYMAP parameter. The tolerance test here is the spec's
exact definition (30_encoding.md R61); the decoder uses the integer windows, and an obligation says that they agree. -/

namespace Sys2Proof

/-- `|g - T| <= 0.15 * T`, evaluated exactly (30_encoding.md R61). -/
def withinTolerance (T : Nat) (g : Gap) : Bool :=
  decide ((if T ≤ g.toNat then g.toNat - T else T - g.toNat) * 100 ≤ Config.tolPercent * T)

/-- A gap longer than the maximum silence, strictly (30_encoding.md R62). -/
def beyondSilence (g : Gap) : Bool := decide (Config.tSilence < g.toNat)

/-- An instruction is well formed when its operands are ones its row of the table admits. The operands of the
operations, of DECODE, RESOLVE and PUBLISH admit every value (30_encoding.md R73, R74); a symbol admits the gaps
that spell it (30_encoding.md R61, R62; 41_frame_decode.md R112, R113). -/
def Instr.wf : Instr → Bool
  | .symBit0 g => withinTolerance Config.tBit0 g
  | .symBit1 g => withinTolerance Config.tBit1 g
  | .symBad g => !withinTolerance Config.tBit0 g && !withinTolerance Config.tBit1 g && !beyondSilence g
  | .symStale g => beyondSilence g
  | .repeatCode g => withinTolerance Config.tRepeat g
  | .nop => true
  | .edge _ => true
  | .poll _ => true
  | .prepDone => true
  | .schedCfg _ _ => true
  | .mboxTake => true
  | .validate _ _ => true
  | .reached _ _ => true
  | .reset => true
  | .decode _ _ _ _ => true
  | .resolve _ => true
  | .publish _ => true
  | .keyDigit0 => true | .keyDigit1 => true | .keyDigit2 => true | .keyDigit3 => true | .keyDigit4 => true
  | .keyDigit5 => true | .keyDigit6 => true | .keyDigit7 => true | .keyDigit8 => true | .keyDigit9 => true
  | .keyPower => true | .keyMenu => true | .keyTest => true | .keyPlus => true | .keyMinus => true
  | .keyBack => true | .keyPrevious => true | .keyPlay => true | .keyNext => true | .keyClear => true
  | .keyUnrecognized => true

/-- A table of command bytes and keys (30_encoding.md R65). -/
abbrev KeyMap := List (Byte × LogicalKey)

/-- No command byte occurs twice. -/
def KeyMap.distinctCodes : KeyMap → Bool
  | [] => true
  | e :: rest => rest.all (fun f => decide (f.1 ≠ e.1)) && KeyMap.distinctCodes rest

/-- The constraints of 30_encoding.md R65: exactly 16 entries, distinct command bytes, each entry's key one of the
20 named keys (not UNRECOGNIZED). -/
def KeyMap.wf (m : KeyMap) : Bool :=
  decide (m.length = Config.nKeymap) && KeyMap.distinctCodes m && m.all (fun e => decide (e.2 ≠ .unrecognized))

end Sys2Proof
end

