-- ==== Sys2Proof/Decode.lean ====
section
/-! DEFINITION. The integer windows of the three tolerances, the key codes, the operation word, the decoder (total,
rejecting by name), the encoder, and the host's `decodeTableWord`. -/

namespace Sys2Proof

/-- BIT0_LO (00_scope.md R5; 92_eei_decisions.md D3: each end point may be off by one against the original, log 15). -/
abbrev Config.bit0Lo : Nat := 957
/-- BIT0_HI (00_scope.md R5). -/
abbrev Config.bit0Hi : Nat := 1293
/-- BIT1_LO (00_scope.md R5). -/
abbrev Config.bit1Lo : Nat := 1913
/-- BIT1_HI (00_scope.md R5). -/
abbrev Config.bit1Hi : Nat := 2587
/-- RPT_LO (00_scope.md R5). -/
abbrev Config.rptLo : Nat := 9563
/-- RPT_HI (00_scope.md R5). -/
abbrev Config.rptHi : Nat := 12937

/-- `in(lo, v, hi)` (00_scope.md R8). -/
def inWindow (lo : Nat) (v : Gap) (hi : Nat) : Bool := decide (lo ≤ v.toNat) && decide (v.toNat ≤ hi)

/-- The gap is in the BIT0 window (30_encoding.md R61). -/
def isBit0 (g : Gap) : Bool := inWindow Config.bit0Lo g Config.bit0Hi
/-- The gap is in the BIT1 window (30_encoding.md R61). -/
def isBit1 (g : Gap) : Bool := inWindow Config.bit1Lo g Config.bit1Hi
/-- The gap is in the RPT window (30_encoding.md R61). -/
def isRepeatGap (g : Gap) : Bool := inWindow Config.rptLo g Config.rptHi
/-- The gap makes a non-empty buffer stale: strictly above the silence threshold (30_encoding.md R62). -/
def isStaleGap (g : Gap) : Bool := decide (Config.tSilence < g.toNat)

/-- The 5-bit code of a logical key (30_encoding.md R67). -/
def codeOfKey : LogicalKey → BitVec 5
  | .digit0 => 0 | .digit1 => 1 | .digit2 => 2 | .digit3 => 3 | .digit4 => 4
  | .digit5 => 5 | .digit6 => 6 | .digit7 => 7 | .digit8 => 8 | .digit9 => 9
  | .power => 10 | .menu => 11 | .test => 12 | .plus => 13 | .minus => 14
  | .back => 15 | .previous => 16 | .play => 17 | .next => 18 | .clear => 19
  | .unrecognized => 31

/-- The 21 logical keys in the order of their codes (30_encoding.md R67). -/
def allKeys : List LogicalKey :=
  [.digit0, .digit1, .digit2, .digit3, .digit4, .digit5, .digit6, .digit7, .digit8, .digit9,
   .power, .menu, .test, .plus, .minus, .back, .previous, .play, .next, .clear, .unrecognized]

/-- The key a code names; codes 20..30 name none (30_encoding.md R67). -/
def namedKey? (code : BitVec 5) : Option LogicalKey :=
  allKeys.find? (fun k => decide (codeOfKey k = code))

/-- `day ++ month ++ hour ++ minute` (30_encoding.md R73). -/
def packTime (t : Time4) : BitVec 32 := t.day ++ t.month ++ t.hour ++ t.minute

/-- The four fields of a packed `Time4` (30_encoding.md R73). -/
def unpackTime (w : BitVec 32) : Time4 :=
  { day := w.extractLsb' 24 8, month := w.extractLsb' 16 8, hour := w.extractLsb' 8 8, minute := w.extractLsb' 0 8 }

/-- The operation word `OPC ++ A ++ B` (30_encoding.md R71). -/
def opWord (opc : BitVec 8) (a b : BitVec 32) : BitVec 72 := opc ++ a ++ b

/-- OPC, bits 71:64 (30_encoding.md R71). -/
def opcOf (w : BitVec 72) : BitVec 8 := w.extractLsb' 64 8
/-- A, bits 63:32 (30_encoding.md R71). -/
def opAOf (w : BitVec 72) : BitVec 32 := w.extractLsb' 32 32
/-- B, bits 31:0 (30_encoding.md R71). -/
def opBOf (w : BitVec 72) : BitVec 32 := w.extractLsb' 0 32

/-- Why a word spells nothing (30_encoding.md R74). -/
inductive Reject where
  /-- An OPC in 0x08..0xFE. -/
  | unassignedOpcode
  /-- A non-zero must-be-zero bit of an operation word. -/
  | mustBeZero
  /-- A key code in 20..30. -/
  | noSuchKey
  /-- A gap after cell 0 that spells neither a repeat nor a stale gap: the header gap, which carries no symbol
  (41_frame_decode.md R122), or a stale gap, which is spelled as a gap from the last stored edge. -/
  | noSymbol
  deriving DecidableEq, Repr

/-- What decoding gives: an instruction, or a rejection by name. -/
inductive Decoded where
  | instr (i : Instr)
  | rejected (r : Reject)
  deriving DecidableEq, Repr

/-- `i` if every must-be-zero bit is zero, else the rejection (30_encoding.md R72, R74). -/
def ifZero (mustBeZero : Bool) (i : Instr) : Decoded :=
  if mustBeZero then .instr i else .rejected .mustBeZero

/-- The operation word's decoder: the table of 30_encoding.md R72. -/
def decodeOp (w : BitVec 72) : Decoded :=
  if opcOf w = 0x00 then ifZero (decide (opAOf w = 0) && decide (opBOf w = 0)) .nop
  else if opcOf w = 0x01 then ifZero (decide (opAOf w = 0)) (.edge (opBOf w))
  else if opcOf w = 0x02 then ifZero (decide (opAOf w = 0)) (.poll (unpackTime (opBOf w)))
  else if opcOf w = 0x03 then ifZero (decide (opAOf w = 0) && decide (opBOf w = 0)) .prepDone
  else if opcOf w = 0x04 then
    ifZero (decide ((opBOf w).extractLsb' 1 31 = 0)) (.schedCfg (unpackTime (opAOf w)) ((opBOf w).getLsbD 0))
  else if opcOf w = 0x05 then ifZero (decide (opAOf w = 0) && decide (opBOf w = 0)) .mboxTake
  else if opcOf w = 0x06 then .instr (.validate (unpackTime (opAOf w)) (unpackTime (opBOf w)))
  else if opcOf w = 0x07 then .instr (.reached (unpackTime (opAOf w)) (unpackTime (opBOf w)))
  else if opcOf w = 0xFF then ifZero (decide (opAOf w = 0) && decide (opBOf w = 0)) .reset
  else .rejected .unassignedOpcode

/-- The frame word's four byte fields (30_encoding.md R63, R64). -/
def decodeFrameWord (w : BitVec 32) : Instr :=
  .decode (w.extractLsb' 24 8) (w.extractLsb' 16 8) (w.extractLsb' 8 8) (w.extractLsb' 0 8)

/-- The symbol a gap from the last stored edge spells (30_encoding.md R61, R62; 41_frame_decode.md R112, R113). -/
def decodeDataGap (g : Gap) : Instr :=
  if isStaleGap g then .symStale g
  else if isBit0 g then .symBit0 g
  else if isBit1 g then .symBit1 g
  else .symBad g

/-- The decoder: total on every presented word. -/
def decode : CodeWord → Decoded
  | .op w => decodeOp w
  | .frame w => .instr (decodeFrameWord w)
  | .command c => .instr (.resolve c)
  | .key ctx code =>
    match namedKey? code with
    | none => .rejected .noSuchKey
    | some k =>
      match ctx with
      | .interrupt => .instr (.publish k)
      | .loop => .instr (Instr.ofKey k)
  | .dataGap g => .instr (decodeDataGap g)
  | .firstGap g => if isRepeatGap g then .instr (.repeatCode g) else .rejected .noSymbol

/-- The encoder: the word of an instruction (30_encoding.md R61, R63, R65, R67, R72, R73). -/
def encode : Instr → CodeWord
  | .nop => .op (opWord 0x00 0 0)
  | .edge t => .op (opWord 0x01 0 t)
  | .poll now => .op (opWord 0x02 0 (packTime now))
  | .prepDone => .op (opWord 0x03 0 0)
  | .schedCfg time valid => .op (opWord 0x04 (packTime time) (if valid then 1 else 0))
  | .mboxTake => .op (opWord 0x05 0 0)
  | .validate target current => .op (opWord 0x06 (packTime target) (packTime current))
  | .reached target current => .op (opWord 0x07 (packTime target) (packTime current))
  | .reset => .op (opWord 0xFF 0 0)
  | .decode ncmd cmd naddr addr => .frame (ncmd ++ cmd ++ naddr ++ addr)
  | .repeatCode g => .firstGap g
  | .resolve command => .command command
  | .publish k => .key .interrupt (codeOfKey k)
  | .symBit0 g => .dataGap g
  | .symBit1 g => .dataGap g
  | .symBad g => .dataGap g
  | .symStale g => .dataGap g
  | .keyDigit0 => .key .loop 0 | .keyDigit1 => .key .loop 1 | .keyDigit2 => .key .loop 2
  | .keyDigit3 => .key .loop 3 | .keyDigit4 => .key .loop 4 | .keyDigit5 => .key .loop 5
  | .keyDigit6 => .key .loop 6 | .keyDigit7 => .key .loop 7 | .keyDigit8 => .key .loop 8
  | .keyDigit9 => .key .loop 9 | .keyPower => .key .loop 10 | .keyMenu => .key .loop 11
  | .keyTest => .key .loop 12 | .keyPlus => .key .loop 13 | .keyMinus => .key .loop 14
  | .keyBack => .key .loop 15 | .keyPrevious => .key .loop 16 | .keyPlay => .key .loop 17
  | .keyNext => .key .loop 18 | .keyClear => .key .loop 19 | .keyUnrecognized => .key .loop 31

/-- The form in which a word of `nbits` bits is presented (log 10). 72 bits: the operation word. 32 bits: the frame
word. One bit: a data symbol, by its nominal gap. Up to 5 bits: a taken key's code. 8 bits: the table's 5-bit KEY
rows padded to a byte and its CMD row share this width; a byte that names a key is read as the KEY row, any other
as the command byte. -/
def tableWord (nbits w : Nat) : CodeWord :=
  if nbits ≤ 1 then .dataGap (if w = 0 then 1125 else 2250)
  else if nbits ≤ 5 then .key .loop (BitVec.ofNat 5 w)
  else if nbits ≤ 8 then
    if decide (w < 32) && (namedKey? (BitVec.ofNat 5 w)).isSome then .key .loop (BitVec.ofNat 5 w)
    else .command (BitVec.ofNat 8 w)
  else if nbits ≤ 32 then .frame (BitVec.ofNat 32 w)
  else .op (BitVec.ofNat 72 w)

/-- The instruction the decoder reads from a table word of `nbits` bits. -/
def decodeTableWord (nbits w : Nat) : Option Instr :=
  match decode (tableWord nbits w) with
  | .instr i => some i
  | .rejected _ => none

end Sys2Proof
end

