-- ==== Sys2Proof/Machine/State.lean ====
section
/-! DEFINITION. The state as plain data, the reasons a step can stop, and the state after reset. -/

namespace Sys2Proof.Machine

/-- The EdgeBuffer as a memory: the cells that hold a value, as (index, timestamp) pairs in strictly rising order of
index. An unlisted cell holds no value (10_state.md R11, R25; log 2). The unit is one whole cell (20_memory.md R44; log 20). -/
abbrev Memory := List (Nat × Timestamp)

/-- The capture group (10_state.md R10): the cells of EB and EB_CNT. -/
structure Capture where
  cells : Memory
  ebCnt : BitVec 6
  deriving DecidableEq, Repr

/-- The decoder group (10_state.md R13): LAST_VALID, LAST_ADDR, LAST_CMD. -/
structure LastDecode where
  valid : Bool
  addr : Byte
  cmd : Byte
  deriving DecidableEq, Repr

/-- The mailbox (10_state.md R14): MB_PRESSED, MB_KEY. -/
structure Mailbox where
  pressed : Bool
  key : BitVec 5
  deriving DecidableEq, Repr

/-- The workflow group in its register form (10_state.md R16, R17). -/
structure WorkflowRegs where
  ws : BitVec 3
  cups : BitVec 3
  mode : BitVec 1
  tgtDay : Byte
  tgtMonth : Byte
  tgtHour : Byte
  tgtMin : Byte
  tgtValid : Bool
  deriving DecidableEq, Repr

/-- The workflow state in its normative form (10_state.md R15); `cups` is in 1..5. -/
inductive WorkflowState where
  | initialScreen
  | selectCups
  | scheduleOrNow (cups : BitVec 3)
  | brewing (cups : BitVec 3) (mode : Mode)
  | scheduling (cups : BitVec 3)
  | waiting (cups : BitVec 3) (target : Time4)
  deriving DecidableEq, Repr

/-- What a register image of the workflow group stands for (10_state.md R16, R23 item 5). -/
inductive WorkflowView where
  /-- The canonical image of a workflow state. -/
  | live (w : WorkflowState)
  /-- WS holds 6 or 7 (30_encoding.md R69). -/
  | notAState
  /-- WS is in 0..5 and the image breaks the zero rule or the range of `cups`. -/
  | outsideInvariant
  deriving DecidableEq, Repr

/-- The events of CT's transition function (43_workflow.md R150). -/
inductive WorkflowEvent where
  | key (k : LogicalKey)
  | preparationComplete
  | scheduleConfigured (time : Time4) (valid : Bool)
  | clockTick (now : Time4)
  deriving DecidableEq, Repr

/-- The five kinds of output event (00_scope.md R9). -/
inductive Event where
  | frame (address command : Byte) (kind : FrameKind)
  | keyPublished (k : LogicalKey)
  | startPreparation (cups : BitVec 3) (mode : Mode)
  | startScheduleConfig
  | reportInvalid
  deriving DecidableEq, Repr

/-- CT's error classes: labels only (60_exceptions.md R200). -/
inductive ErrorClass where
  /-- A data gap outside both windows: raised by DECODE, a drop (60_exceptions.md R201). -/
  | badTiming
  /-- A complement mismatch: raised by DECODE, a drop (60_exceptions.md R202). -/
  | checksumFail
  /-- Raised by the collaborator and delivered as SCHED_CFG with valid = 0; never a drop of the block (R203). -/
  | invalidTime
  /-- Raised by the preparation collaborator, outside the block; never a drop of the block (R204). -/
  | insufficient
  deriving DecidableEq, Repr

/-- What an operation returns to whoever applied it. -/
inductive Result where
  /-- MBOX_TAKE: the ports mb_pressed and mb_key, before the clear (42_keys_mailbox.md R135, 10_state.md R24). A pending
  `code` is that of a logical key. -/
  | taken (pressed : Bool) (code : BitVec 5)
  /-- VALIDATE: the port q_later (44_schedule_gate.md R190). -/
  | later (b : Bool)
  /-- REACHED: the port q_equal (44_schedule_gate.md R191). -/
  | equal (b : Bool)
  /-- RESOLVE (42_keys_mailbox.md R131). -/
  | resolved (k : LogicalKey)
  deriving DecidableEq, Repr

/-- What the environment presents: one word, or an EDGE together with a loop-context operation
(10_state.md R24, 20_memory.md R50). -/
inductive Presentation where
  | one (w : CodeWord)
  | both (edge loop : CodeWord)
  deriving DecidableEq, Repr

/-- The MODEL's own fields at the block's boundary (log 5, log 7): what waits to be applied, oldest first, and the
outputs that belong to the last operation. -/
structure Port where
  input : List Presentation
  events : List Event
  dropped : Option ErrorClass
  result : Option Result
  deriving DecidableEq, Repr

/-- The MODEL's own working fields: the word W under assembly by single symbols (log 9), and the counter from which
free values are drawn (log 3). -/
structure Work where
  acc : BitVec 32
  free : Nat
  deriving DecidableEq, Repr

/-- The whole state. The first four groups are the block's (10_state.md R10); the last two are the model's. -/
structure State where
  capture : Capture
  decoder : LastDecode
  mailbox : Mailbox
  workflow : WorkflowRegs
  port : Port
  work : Work
  deriving DecidableEq, Repr

/-- Why the machine stops with a fault. Both arise only in images outside 10_state.md R23. -/
inductive Fault where
  /-- An EdgeBuffer index of 34 or more is formed (20_memory.md R41: it does not exist). Raised by the cell accesses;
  EDGE and SYM_STALE, which alone make them, refuse before they would form such an index. Safe. -/
  | noSuchCell (index : Nat)
  /-- A cell that holds no value is read (10_state.md R11). Raised by EDGE and SYM_STALE where a cell below EB_CNT was
  never written, against 10_state.md R23 item 2 (log 13). Safe. -/
  | cellHoldsNoValue (index : Nat)
  deriving DecidableEq, Repr

/-- Why the machine refuses. -/
inductive Refusal where
  /-- An instruction that has no meaning yet: raised by exec's arms, by none now. Safe. -/
  | notModelled (mnemonic : String)
  /-- The presented word spells no operation: raised by step (30_encoding.md R74, 93_implementation_defined.md U16). Safe. -/
  | spellsNoOperation (r : Reject)
  /-- An edge with EB_CNT >= 34, which has no defined behaviour (93_implementation_defined.md U15): raised by EDGE and
  SYM_STALE (log 13). Safe. -/
  | edgeCountOutOfRange
  /-- Stored edges that break 10_state.md R23 item 3, to which the spec gives no meaning and which a model should
  refuse: raised by EDGE and SYM_STALE (log 13). Safe. -/
  | captureImageOutsideInvariant
  /-- A workflow image with WS in 0..5 that breaks 10_state.md R23 item 5, to which the spec gives no meaning and which
  a model should refuse: raised by POLL, PREP_DONE, SCHED_CFG and the key rows. Safe. -/
  | workflowImageOutsideInvariant
  deriving DecidableEq, Repr

/-- The register image of InitialScreen (10_state.md R16, R25). -/
def WorkflowRegs.initial : WorkflowRegs :=
  { ws := 0, cups := 0, mode := 0, tgtDay := 0, tgtMonth := 0, tgtHour := 0, tgtMin := 0, tgtValid := false }

/-- The state after reset (10_state.md R25). LAST_ADDR, LAST_CMD and MB_KEY, which the spec leaves unspecified and asks
a model never to represent as zero, are all ones (DESIGN CHOICE, unsafe, log 1); no cell of EB holds a value (log 2). -/
def State.reset : State :=
  { capture := { cells := [], ebCnt := 0 }
    decoder := { valid := false, addr := 0xFF, cmd := 0xFF }
    mailbox := { pressed := false, key := 31 }
    workflow := WorkflowRegs.initial
    port := { input := [], events := [], dropped := none, result := none }
    work := { acc := 0, free := 0 } }

end Sys2Proof.Machine
end

