-- ==== Sys2Proof/Machine/Flags.lean ====
section
/-! DEFINITION. The three one-bit flags and the registers written with them (10_state.md R19). The block has no
condition codes. TGT_VALID is part of the workflow image (Machine/Operands.lean). -/

namespace Sys2Proof.Machine

/-- LAST_VALID <- 1, LAST_ADDR <- address, LAST_CMD <- command (41_frame_decode.md R118). -/
def State.recordDecode (address command : Byte) (s : State) : State :=
  { s with decoder := { valid := true, addr := address, cmd := command } }

/-- MB_KEY <- code, MB_PRESSED <- 1, the two writes together (42_keys_mailbox.md R133). -/
def State.setMailbox (code : BitVec 5) (s : State) : State :=
  { s with mailbox := { pressed := true, key := code } }

/-- MB_PRESSED <- 0; MB_KEY is left unchanged (42_keys_mailbox.md R135, 92_eei_decisions.md D31). -/
def State.clearPressed (s : State) : State :=
  { s with mailbox := { s.mailbox with pressed := false } }

end Sys2Proof.Machine
end

