-- ==== Sys2Proof/Machine/Ops.lean ====
section
/-! DEFINITION. The named operations over the EdgeBuffer, the mailbox and the boundary. The block takes no exception:
its only form of raise is `dropFrame`, the one shared operation of 60_exceptions.md R210; nothing is saved and there is
nothing to return from (R211). -/

namespace Sys2Proof.Machine

/-- The timestamp cell `i` holds, if it holds one. -/
def Memory.read : Memory → Nat → Option Timestamp
  | [], _ => none
  | e :: rest, i => if e.1 = i then some e.2 else Memory.read rest i

/-- The cells with `EB[i] <- t` done, in rising order of index. -/
def Memory.write : Memory → Nat → Timestamp → Memory
  | [], i, t => [(i, t)]
  | e :: rest, i, t =>
    if i < e.1 then (i, t) :: e :: rest
    else if e.1 = i then (i, t) :: rest
    else e :: Memory.write rest i t

/-- The canonical form: every index is one of 0..33 and the indices rise strictly. -/
def Memory.wf : Memory → Bool
  | [] => true
  | e :: rest =>
    decide (e.1 < Config.edgeCap) && rest.all (fun f => decide (e.1 < f.1)) && Memory.wf rest

/-- `EB[i]` (20_memory.md R40, R42): index 34 and above does not exist (R41), and a cell that was never written holds
no value (10_state.md R11). -/
def readCell (m : Memory) (i : Nat) : Except Fault Timestamp :=
  if Config.edgeCap ≤ i then .error (.noSuchCell i)
  else match m.read i with
    | none => .error (.cellHoldsNoValue i)
    | some t => .ok t

/-- `EB[i] <- t`, one whole cell (20_memory.md R44). -/
def writeCell (m : Memory) (i : Nat) (t : Timestamp) : Except Fault Memory :=
  if Config.edgeCap ≤ i then .error (.noSuchCell i) else .ok (m.write i t)

/-- The timestamps of the cells listed, in order. -/
def readCells (m : Memory) : List Nat → Except Fault (List Timestamp)
  | [] => .ok []
  | i :: rest =>
    match readCell m i with
    | .error f => .error f
    | .ok t =>
      match readCells m rest with
      | .error f => .error f
      | .ok ts => .ok (t :: ts)

/-- EB_CNT <- n. A buffer reset is `setCount 0`: it changes no cell (10_state.md R12). -/
def State.setCount (n : BitVec 6) (s : State) : State :=
  { s with capture := { s.capture with ebCnt := n } }

/-- The boundary at the start of an operation: events, label and result belong to the operation that makes them
(00_scope.md R9), so those of the operation before are gone. -/
def State.begin (s : State) : State :=
  { s with port := { s.port with events := [], dropped := none, result := none } }

/-- `emit E(args)` (00_scope.md R8). -/
def State.emit (e : Event) (s : State) : State :=
  { s with port := { s.port with events := s.port.events ++ [e] } }

/-- An effect, where the transition has one. -/
def State.emitEffect (e : Option Event) (s : State) : State :=
  match e with
  | none => s
  | some e => s.emit e

/-- `drop Label`: the sub-operation ends with no emission and no write; the label stays as a trace label only
(00_scope.md R8, 60_exceptions.md R200, R210). -/
def State.dropFrame (label : ErrorClass) (s : State) : State :=
  { s with port := { s.port with dropped := some label } }

/-- The operation returns `r`. -/
def State.answer (r : Result) (s : State) : State :=
  { s with port := { s.port with result := some r } }

/-- W <- w, the model's own working word (log 9). -/
def State.setAcc (w : BitVec 32) (s : State) : State :=
  { s with work := { s.work with acc := w } }

/-- The workflow registers <- r. -/
def State.setWorkflow (r : WorkflowRegs) (s : State) : State :=
  { s with workflow := r }

/-- PUBLISH(k): the mailbox is written and `KeyPublished(k)` emitted; a full slot is overwritten
(42_keys_mailbox.md R133, R134). -/
def State.publishKey (k : LogicalKey) (s : State) : State :=
  (s.setMailbox (codeOfKey k)).emit (.keyPublished k)

/-- The registers a RESET operation leaves (70_reset_and_hazards.md R230): the values of 10_state.md R25, and free
values where it gives none (log 3). What the environment still presents is not the block's state. -/
def State.resetRegisters (s : State) : State :=
  { capture := { cells := [], ebCnt := 0 }
    decoder := { valid := false, addr := Config.freeByte s.work.free, cmd := Config.freeByte (s.work.free + 1) }
    mailbox := { pressed := false, key := Config.freeKeyCode (s.work.free + 2) }
    workflow := WorkflowRegs.initial
    port := s.port
    work := { acc := 0, free := s.work.free + 3 } }

end Sys2Proof.Machine
end

