-- ==== Sys2Proof/Machine/Operands.lean ====
section
/-! DEFINITION. How registers are read as operands: the key a code stands for, the target time, the cup count of a
digit key, and the workflow registers as an encoding of the workflow state (10_state.md R15, R16). -/

namespace Sys2Proof.Machine

/-- The key MB_KEY stands for. Codes 20..30 name no key and are never published; they are treated as UNRECOGNIZED
by every operation that takes them (93_implementation_defined.md U14, log 14). -/
def keyOfCode (code : BitVec 5) : LogicalKey := (namedKey? code).getD .unrecognized

/-- The cups a key selects: DIGIT_1..DIGIT_5 (43_workflow.md R156). -/
def cupsOfKey : LogicalKey → Option (BitVec 3)
  | .digit1 => some 1
  | .digit2 => some 2
  | .digit3 => some 3
  | .digit4 => some 4
  | .digit5 => some 5
  | .digit0 => none | .digit6 => none | .digit7 => none | .digit8 => none | .digit9 => none
  | .power => none | .menu => none | .test => none | .plus => none | .minus => none | .back => none
  | .previous => none | .play => none | .next => none | .clear => none | .unrecognized => none

/-- `cups` is in CUPS_MIN..CUPS_MAX (10_state.md R15). -/
def cupsLegal (c : BitVec 3) : Bool := decide (Config.cupsMin ≤ c.toNat) && decide (c.toNat ≤ Config.cupsMax)

/-- The bit MODE holds (30_encoding.md R68). -/
def bitOfMode : Mode → BitVec 1
  | .now => 0
  | .scheduled => 1

/-- The mode a MODE bit stands for (30_encoding.md R68). -/
def modeOfBit (b : BitVec 1) : Mode := if b = 0 then .now else .scheduled

/-- The code of a frame kind: 0 Normal, 1 Repeat (30_encoding.md R68). -/
def bitOfKind : FrameKind → BitVec 1
  | .normal => 0
  | .repeated => 1

/-- The frame kind a code stands for (30_encoding.md R68). -/
def kindOfBit (b : BitVec 1) : FrameKind := if b = 0 then .normal else .repeated

/-- The code a take returns: while a key is pending, the code of the key MB_KEY stands for (42_keys_mailbox.md R135; for
codes 20..30 see log 14); else what MB_KEY holds, which is meaningless. -/
def takenCode (m : Mailbox) : BitVec 5 := if m.pressed then codeOfKey (keyOfCode m.key) else m.key

/-- The target time the TGT registers hold (10_state.md R17). -/
def WorkflowRegs.target (r : WorkflowRegs) : Time4 :=
  { day := r.tgtDay, month := r.tgtMonth, hour := r.tgtHour, minute := r.tgtMin }

/-- The payload of a workflow state is legal: `cups` in 1..5 where there is one (10_state.md R15). -/
def WorkflowState.legal : WorkflowState → Bool
  | .initialScreen => true
  | .selectCups => true
  | .scheduleOrNow c => cupsLegal c
  | .brewing c _ => cupsLegal c
  | .scheduling c => cupsLegal c
  | .waiting c _ => cupsLegal c

/-- The register image of a workflow state: every register the variant does not carry holds 0 (10_state.md R16). -/
def imageOf : WorkflowState → WorkflowRegs
  | .initialScreen => WorkflowRegs.initial
  | .selectCups => { WorkflowRegs.initial with ws := 1 }
  | .scheduleOrNow c => { WorkflowRegs.initial with ws := 2, cups := c }
  | .brewing c m => { WorkflowRegs.initial with ws := 3, cups := c, mode := bitOfMode m }
  | .scheduling c => { WorkflowRegs.initial with ws := 4, cups := c }
  | .waiting c t =>
    { ws := 5, cups := c, mode := 0, tgtDay := t.day, tgtMonth := t.month, tgtHour := t.hour, tgtMin := t.minute,
      tgtValid := true }

/-- The variant that WS selects, with the payload its registers hold (10_state.md R16). -/
def selectedState (r : WorkflowRegs) : Option WorkflowState :=
  if r.ws = 0 then some .initialScreen
  else if r.ws = 1 then some .selectCups
  else if r.ws = 2 then some (.scheduleOrNow r.cups)
  else if r.ws = 3 then some (.brewing r.cups (modeOfBit r.mode))
  else if r.ws = 4 then some (.scheduling r.cups)
  else if r.ws = 5 then some (.waiting r.cups r.target)
  else none

/-- What a register image stands for (10_state.md R16, R23 item 5). -/
def viewOf (r : WorkflowRegs) : WorkflowView :=
  match selectedState r with
  | none => .notAState
  | some w => if w.legal && decide (imageOf w = r) then .live w else .outsideInvariant

/-- What the workflow registers stand for. -/
def State.view (s : State) : WorkflowView := viewOf s.workflow

end Sys2Proof.Machine
end

