-- ==== Sys2Proof/Machine/Keys.lean ====
section
/-! DEFINITION. KeyResolver and the mailbox: KEYMAP, RESOLVE, PUBLISH, MBOX_TAKE (42_keys_mailbox.md). -/

namespace Sys2Proof.Machine

/-- KEYMAP_REF (30_encoding.md R66): the reference table, from general knowledge by the spec's own words (K3).
Mark: PRESUMED (log 23). -/
def keymapRef : KeyMap :=
  [(0xA2, .power), (0xE2, .menu), (0x22, .test), (0x02, .plus), (0x98, .minus), (0xC2, .back), (0xE0, .previous),
   (0xA8, .play), (0x90, .next), (0x68, .digit0), (0x30, .digit1), (0x18, .digit2), (0x7A, .digit3), (0x10, .digit4),
   (0x38, .digit5), (0xB0, .clear)]

/-- KEYMAP, the open parameter (30_encoding.md R65): any legal table, and always a legal one. The raw contents are
opaque; where they would be no legal table the reference stands in (log 4). -/
def keymap : KeyMap := if KeyMap.wf Config.keymapRaw then Config.keymapRaw else keymapRef

/-- RESOLVE(command) over a table: pure and total (42_keys_mailbox.md R131). -/
def resolveWith (m : KeyMap) (command : Byte) : LogicalKey :=
  match m.find? (fun e => decide (e.1 = command)) with
  | some e => e.2
  | none => .unrecognized

/-- `take()`: MB_PRESSED and the key of MB_KEY before the operation; MB_PRESSED is cleared and MB_KEY left
(42_keys_mailbox.md R135). -/
def takeMailbox (s : State) : (Bool × BitVec 5) × State :=
  ((s.mailbox.pressed, takenCode s.mailbox), s.clearPressed)

/-- On a Frame: RESOLVE its command, then PUBLISH the key, inside the same operation (42_keys_mailbox.md R130). The
address and the kind are not used (R136). -/
def consumeFrame (m : KeyMap) (command : Byte) (s : State) : State :=
  s.publishKey (resolveWith m command)

/-- RESOLVE as a row of the table: it returns the key and changes no register (42_keys_mailbox.md R131). -/
def execResolve (command : Byte) (s : State) : Host.Outcome State Fault Refusal :=
  .next (s.begin.answer (.resolved (resolveWith keymap command)))

/-- PUBLISH as a row of the table (42_keys_mailbox.md R133). -/
def execPublish (k : LogicalKey) (s : State) : Host.Outcome State Fault Refusal :=
  .next (s.begin.publishKey k)

/-- MBOX_TAKE (42_keys_mailbox.md R135). -/
def execMboxTake (s : State) : Host.Outcome State Fault Refusal :=
  match takeMailbox s.begin with
  | ((pressed, code), s') => .next (s'.answer (.taken pressed code))

end Sys2Proof.Machine
end

