-- ==== Sys2Proof/Machine/FrameDecode.lean ====
section
/-! DEFINITION. FrameDecoder: DECODE and REPEAT, sub-operations of EDGE (41_frame_decode.md), and the data symbols. -/

namespace Sys2Proof.Machine

/-- The successive gaps `dt(x[j+1], x[j])` of a list of timestamps (41_frame_decode.md R111). -/
def gapsOf : List Timestamp → List Gap
  | [] => []
  | a :: rest =>
    match rest with
    | [] => []
    | b :: _ => dt b a :: gapsOf rest

/-- The bit a data gap spells; `none` for a gap outside both windows (41_frame_decode.md R112, R113). -/
def classifyGap (g : Gap) : Option Bool :=
  if isBit0 g then some false else if isBit1 g then some true else none

/-- `W <- (W >> 1) | (b << 31)` (41_frame_decode.md R114). -/
def shiftInBit (w : BitVec 32) (b : Bool) : BitVec 32 :=
  (w >>> 1) ||| ((if b then (1 : BitVec 32) else 0) <<< 31)

/-- The word the gaps spell, starting from `w`; `none` at the first gap that spells no bit (41_frame_decode.md R113,
R114). -/
def assembleWord (w : BitVec 32) : List Gap → Option (BitVec 32)
  | [] => some w
  | g :: rest =>
    match classifyGap g with
    | none => none
    | some b => assembleWord (shiftInBit w b) rest

/-- `address = W[7:0]` (41_frame_decode.md R116). -/
def frameAddress (w : BitVec 32) : Byte := w.extractLsb' 0 8
/-- `naddr = W[15:8]` (41_frame_decode.md R116). -/
def frameNaddr (w : BitVec 32) : Byte := w.extractLsb' 8 8
/-- `command = W[23:16]` (41_frame_decode.md R116). -/
def frameCommand (w : BitVec 32) : Byte := w.extractLsb' 16 8
/-- `ncmd = W[31:24]` (41_frame_decode.md R116). -/
def frameNcmd (w : BitVec 32) : Byte := w.extractLsb' 24 8

/-- The checksum: `address = ~naddr` and `command = ~ncmd` (41_frame_decode.md R117). -/
def checksumOk (w : BitVec 32) : Bool :=
  decide (frameAddress w = ~~~frameNaddr w) && decide (frameCommand w = ~~~frameNcmd w)

/-- The end of DECODE, over the assembled word: acceptance records the pair and emits the Frame; a mismatch is a drop
and writes nothing (41_frame_decode.md R117, R118). The working word is discarded. The answer says whether a Frame was
emitted. -/
def acceptWord (w : BitVec 32) (s : State) : Bool × State :=
  if checksumOk w then
    (true,
      ((s.setAcc 0).recordDecode (frameAddress w) (frameCommand w)).emit
        (.frame (frameAddress w) (frameCommand w) .normal))
  else (false, (s.setAcc 0).dropFrame .checksumFail)

/-- REPEAT: if a Frame was ever accepted, its pair is emitted again; else nothing. No register is written
(41_frame_decode.md R121). The answer says whether a Frame was emitted. -/
def emitRepeat (s : State) : Bool × State :=
  if s.decoder.valid then (true, s.emit (.frame s.decoder.addr s.decoder.cmd .repeated)) else (false, s)

/-- DECODE as a row of the table: the frame word is its operand, the data symbols having assembled it
(41_frame_decode.md R110, R116 to R118; log 8). -/
def execDecode (ncmd cmd naddr addr : Byte) (s : State) : Host.Outcome State Fault Refusal :=
  .next (acceptWord (ncmd ++ cmd ++ naddr ++ addr) s.begin).2

/-- REPEAT as a row of the table (41_frame_decode.md R121); it takes no operand (R120): `_g` is the gap that spelled
it. -/
def execRepeatCode (_g : Gap) (s : State) : Host.Outcome State Fault Refusal :=
  .next (emitRepeat s.begin).2

/-- SYM_BIT0: a logical 0 is shifted into the word (41_frame_decode.md R112, R114; log 9). -/
def execSymBit0 (_g : Gap) (s : State) : Host.Outcome State Fault Refusal :=
  .next (s.begin.setAcc (shiftInBit s.work.acc false))

/-- SYM_BIT1: a logical 1 is shifted into the word (41_frame_decode.md R112, R114; log 9). -/
def execSymBit1 (_g : Gap) (s : State) : Host.Outcome State Fault Refusal :=
  .next (s.begin.setAcc (shiftInBit s.work.acc true))

/-- SYM_BAD: the whole frame is dropped as BadTiming, the partial word is discarded and EB_CNT is 0 afterwards
(41_frame_decode.md R113, 60_exceptions.md R201; log 12). -/
def execSymBad (_g : Gap) (s : State) : Host.Outcome State Fault Refusal :=
  .next (((s.begin.setAcc 0).dropFrame .badTiming).setCount 0)

end Sys2Proof.Machine
end

