-- ==== Sys2Proof/Machine/Capture.lean ====
section
/-! DEFINITION. PulseCapture: the EDGE operation with its four steps (40_capture.md), and the stale symbol. -/

namespace Sys2Proof.Machine

/-- Item 3 of 10_state.md R23 over the gaps of the stored edges: none above T_SILENCE, the first no repeat gap. -/
def legalGaps : List Gap → Bool
  | [] => true
  | g :: rest => !isRepeatGap g && (g :: rest).all (fun h => !isStaleGap h)

/-- What an edge does, where the capture group is one of 10_state.md R23 items 1 to 3; the other images have no meaning
and stop by name (log 13). -/
def onLegalCapture (c : Capture) (o : Host.Outcome State Fault Refusal) : Host.Outcome State Fault Refusal :=
  if Config.edgeCap ≤ c.ebCnt.toNat then .refused .edgeCountOutOfRange
  else match readCells c.cells (List.range' 0 c.ebCnt.toNat) with
    | .error f => .fault f
    | .ok ts => if legalGaps (gapsOf ts) then o else .refused .captureImageOutsideInvariant

/-- Step 1, the stale check (40_capture.md R91): a non-empty buffer whose last stored edge is more than T_SILENCE old
is reset. No cell is erased. -/
def staleCheck (t : Timestamp) (c : Capture) : Except Fault Capture :=
  if c.ebCnt = 0 then .ok c
  else match readCell c.cells (c.ebCnt.toNat - 1) with
    | .error f => .error f
    | .ok last => .ok (if isStaleGap (dt t last) then { c with ebCnt := 0 } else c)

/-- Step 2, the repeat test (40_capture.md R93): exactly one prior edge, and the gap since it in the RPT window. -/
def repeatTest (t : Timestamp) (c : Capture) : Except Fault Bool :=
  if c.ebCnt = 1 then
    match readCell c.cells 0 with
    | .error f => .error f
    | .ok first => .ok (isRepeatGap (dt t first))
  else .ok false

/-- Step 3, the append (40_capture.md R94). -/
def appendEdge (t : Timestamp) (c : Capture) : Except Fault Capture :=
  match writeCell c.cells c.ebCnt.toNat t with
  | .error f => .error f
  | .ok cells => .ok { cells := cells, ebCnt := c.ebCnt + 1 }

/-- The word a full buffer spells, from the 32 gaps of cells 1..33 (41_frame_decode.md R111 to R114); `none` for
BadTiming. -/
def bufferWord (m : Memory) : Except Fault (Option (BitVec 32)) :=
  match readCells m (List.range' 1 33) with
  | .error f => .error f
  | .ok ts => .ok (assembleWord 0 (gapsOf ts))

/-- DECODE over the assembled word, or the BadTiming drop, and the consumption of the Frame it emits
(41_frame_decode.md R110, 42_keys_mailbox.md R130). -/
def decodeAndPublish (m : KeyMap) (w : Option (BitVec 32)) (s : State) : State :=
  match w with
  | none => (s.setAcc 0).dropFrame .badTiming
  | some w =>
    match acceptWord w s with
    | (true, s') => consumeFrame m (frameCommand w) s'
    | (false, s') => s'

/-- REPEAT, and the consumption of the Frame it emits (41_frame_decode.md R121, 42_keys_mailbox.md R130). -/
def repeatAndPublish (m : KeyMap) (s : State) : State :=
  match emitRepeat s with
  | (true, s') => consumeFrame m s.decoder.cmd s'
  | (false, s') => s'

/-- Step 4, the full-frame handoff (40_capture.md R95). -/
def handOff (m : KeyMap) (s : State) : Host.Outcome State Fault Refusal :=
  if s.capture.ebCnt = 34 then
    match bufferWord s.capture.cells with
    | .error f => .fault f
    | .ok w => .next ((decodeAndPublish m w s).setCount 0)
  else .next s

/-- The four steps of EDGE in order (40_capture.md R90). -/
def edgeSteps (m : KeyMap) (t : Timestamp) (s : State) : Host.Outcome State Fault Refusal :=
  match staleCheck t s.capture with
  | .error f => .fault f
  | .ok c =>
    match repeatTest t c with
    | .error f => .fault f
    | .ok true => .next ((repeatAndPublish m { s.begin with capture := c }).setCount 0)
    | .ok false =>
      match appendEdge t c with
      | .error f => .fault f
      | .ok c' => handOff m { s.begin with capture := c' }

/-- EDGE(t) over a key table (40_capture.md R90). -/
def edgeWith (m : KeyMap) (t : Timestamp) (s : State) : Host.Outcome State Fault Refusal :=
  onLegalCapture s.capture (edgeSteps m t s)

/-- EDGE(t) (40_capture.md R90), over the block's KEYMAP. -/
def execEdge (t : Timestamp) (s : State) : Host.Outcome State Fault Refusal := edgeWith keymap t s

/-- The buffer is reset and the arriving edge, `g` after the last stored edge, becomes cell 0 (40_capture.md R91). With an
empty buffer there is no last stored edge and nothing to abandon (log 12). -/
def restartBuffer (g : Gap) (s : State) : Host.Outcome State Fault Refusal :=
  if s.capture.ebCnt = 0 then .next s.begin
  else match readCell s.capture.cells (s.capture.ebCnt.toNat - 1) with
    | .error f => .fault f
    | .ok last =>
      match appendEdge (last + g) { s.capture with ebCnt := 0 } with
      | .error f => .fault f
      | .ok c => .next { s.begin with capture := c }

/-- SYM_STALE (40_capture.md R91). -/
def execSymStale (g : Gap) (s : State) : Host.Outcome State Fault Refusal :=
  onLegalCapture s.capture (restartBuffer g s)

end Sys2Proof.Machine
end

