-- ==== Sys2Proof/Machine/Gate.lean ====
section
/-! DEFINITION. ScheduleGate: the two pure queries VALIDATE and REACHED (44_schedule_gate.md). -/

namespace Sys2Proof.Machine

/-- LexGT: strict lexicographic order (00_scope.md R8). -/
def lexGT : List Nat → List Nat → Bool
  | a :: as, b :: bs => if a = b then lexGT as bs else decide (b < a)
  | [], _ => false
  | _ :: _, [] => false

/-- The comparison priority of VALIDATE: month, day, hour, minute (44_schedule_gate.md R190). -/
def gateFields (t : Time4) : List Nat := [t.month.toNat, t.day.toNat, t.hour.toNat, t.minute.toNat]

/-- VALIDATE(target, current): strictly later; no year, no range check (44_schedule_gate.md R190, R192, R193). -/
def isLater (target current : Time4) : Bool := lexGT (gateFields target) (gateFields current)

/-- REACHED(target, current): all four fields equal (44_schedule_gate.md R191). -/
def isReached (target current : Time4) : Bool :=
  decide (target.day = current.day) && decide (target.month = current.month) &&
    decide (target.hour = current.hour) && decide (target.minute = current.minute)

/-- VALIDATE (44_schedule_gate.md R190): a pure query. -/
def execValidate (target current : Time4) (s : State) : Host.Outcome State Fault Refusal :=
  .next (s.begin.answer (.later (isLater target current)))

/-- REACHED (44_schedule_gate.md R191): a pure query. -/
def execReached (target current : Time4) (s : State) : Host.Outcome State Fault Refusal :=
  .next (s.begin.answer (.equal (isReached target current)))

end Sys2Proof.Machine
end

