-- ==== Sys2Proof/Machine/Workflow.lean ====
section
/-! DEFINITION. WorkflowStateMachine: the pure transition function, POLL, PREP_DONE, SCHED_CFG, NOP (43_workflow.md). -/

namespace Sys2Proof.Machine

/-- A key taken in InitialScreen (43_workflow.md R153, R154). -/
def initialScreenKey (k : LogicalKey) : WorkflowState × Option Event :=
  if k = .play then (.selectCups, none) else (.initialScreen, none)

/-- A key taken in SelectCups (43_workflow.md R155, R156, R157). -/
def selectCupsKey (k : LogicalKey) : WorkflowState × Option Event :=
  if k = .digit0 then (.initialScreen, none)
  else match cupsOfKey k with
    | some n => (.scheduleOrNow n, none)
    | none => (.selectCups, some .reportInvalid)

/-- A key taken in ScheduleOrNow (43_workflow.md R158, R159, R160). -/
def scheduleOrNowKey (c : BitVec 3) (k : LogicalKey) : WorkflowState × Option Event :=
  if k = .digit1 then (.brewing c .now, some (.startPreparation c .now))
  else if k = .digit2 then (.scheduling c, some .startScheduleConfig)
  else (.scheduleOrNow c, none)

/-- CT's transition function, (state, event) to (state, optional effect): the table of 43_workflow.md R176. -/
def transition (w : WorkflowState) (e : WorkflowEvent) : WorkflowState × Option Event :=
  match w, e with
  | .initialScreen, .key k => initialScreenKey k
  | .selectCups, .key k => selectCupsKey k
  | .scheduleOrNow c, .key k => scheduleOrNowKey c k
  | .brewing _ _, .preparationComplete => (.initialScreen, none)
  | .scheduling c, .scheduleConfigured time valid => (if valid then .waiting c time else .initialScreen, none)
  | .waiting c target, .clockTick now =>
    if isReached target now then (.brewing c .scheduled, some (.startPreparation c .scheduled))
    else (.waiting c target, none)
  | w, _ => (w, none)

/-- The transition of the live state on an event, as register writes and an output event. -/
def applyEvent (w : WorkflowState) (e : WorkflowEvent) (s : State) : State :=
  (s.setWorkflow (imageOf (transition w e).1)).emitEffect (transition w e).2

/-- The three key-driven states, in which POLL takes a key (43_workflow.md R152). -/
def WorkflowState.takesKey : WorkflowState → Bool
  | .initialScreen => true
  | .selectCups => true
  | .scheduleOrNow _ => true
  | .brewing _ _ => false
  | .scheduling _ => false
  | .waiting _ _ => false

/-- POLL in a live state: in a key-driven state the mailbox is taken and a pending key dispatched; in the others the
clock is examined, which only Waiting answers to (43_workflow.md R151). -/
def pollLive (w : WorkflowState) (now : Time4) (s : State) : State :=
  if w.takesKey then
    match takeMailbox s with
    | ((pressed, code), s') => if pressed then applyEvent w (.key (keyOfCode code)) s' else s'
  else applyEvent w (.clockTick now) s

/-- POLL(now) (43_workflow.md R151). With WS 6 or 7 it is the defensive reset of R168. -/
def execPoll (now : Time4) (s : State) : Host.Outcome State Fault Refusal :=
  match s.view with
  | .live w => .next (pollLive w now s.begin)
  | .notAState => .next (s.begin.setWorkflow WorkflowRegs.initial)
  | .outsideInvariant => .refused .workflowImageOutsideInvariant

/-- PREP_DONE: in Brewing the machine returns to InitialScreen and the mailbox is emptied (43_workflow.md R169);
elsewhere it changes nothing (R170). -/
def execPrepDone (s : State) : Host.Outcome State Fault Refusal :=
  match s.view with
  | .live (.brewing c m) => .next (applyEvent (.brewing c m) .preparationComplete s.begin.clearPressed)
  | .live _ => .next s.begin
  | .notAState => .next s.begin
  | .outsideInvariant => .refused .workflowImageOutsideInvariant

/-- SCHED_CFG(time, valid): in Scheduling it goes to Waiting or to InitialScreen and empties the mailbox
(43_workflow.md R171, R172, R173); elsewhere it changes nothing (R174). The flag is believed. -/
def execSchedCfg (time : Time4) (valid : Bool) (s : State) : Host.Outcome State Fault Refusal :=
  match s.view with
  | .live (.scheduling c) =>
    .next (applyEvent (.scheduling c) (.scheduleConfigured time valid) s.begin.clearPressed)
  | .live _ => .next s.begin
  | .notAState => .next s.begin
  | .outsideInvariant => .refused .workflowImageOutsideInvariant

/-- NOP changes nothing and emits nothing (43_workflow.md R175). -/
def execNop (s : State) : Host.Outcome State Fault Refusal := .next s.begin

end Sys2Proof.Machine
end

