-- ==== Sys2Proof/Machine/KeyDispatch.lean ====
section
/-! DEFINITION. The 21 key rows: the transition the live state makes on a key that POLL's take delivered, dispatched as
43_workflow.md R178 says. The take itself is POLL's; a key row touches the workflow registers only. -/

namespace Sys2Proof.Machine

/-- The key `k`, already taken, in the live state (43_workflow.md R178). In Brewing, Scheduling and Waiting, and with WS
6 or 7, no key is taken, so nothing changes (R162, R163, R164, R168; log 11). -/
def keyEvent (k : LogicalKey) (s : State) : Host.Outcome State Fault Refusal :=
  match s.view with
  | .live w => .next (applyEvent w (.key k) s.begin)
  | .notAState => .next s.begin
  | .outsideInvariant => .refused .workflowImageOutsideInvariant

/-- KEY_DIGIT_0: 43_workflow.md R154, R155, R160 in the three key-driven states. -/
def execKeyDigit0 (s : State) : Host.Outcome State Fault Refusal := keyEvent .digit0 s

/-- KEY_DIGIT_1: 43_workflow.md R154, R156, R158 in the three key-driven states. -/
def execKeyDigit1 (s : State) : Host.Outcome State Fault Refusal := keyEvent .digit1 s

/-- KEY_DIGIT_2: 43_workflow.md R154, R156, R159 in the three key-driven states. -/
def execKeyDigit2 (s : State) : Host.Outcome State Fault Refusal := keyEvent .digit2 s

/-- KEY_DIGIT_3: 43_workflow.md R154, R156, R160 in the three key-driven states. -/
def execKeyDigit3 (s : State) : Host.Outcome State Fault Refusal := keyEvent .digit3 s

/-- KEY_DIGIT_4: 43_workflow.md R154, R156, R160 in the three key-driven states. -/
def execKeyDigit4 (s : State) : Host.Outcome State Fault Refusal := keyEvent .digit4 s

/-- KEY_DIGIT_5: 43_workflow.md R154, R156, R160 in the three key-driven states. -/
def execKeyDigit5 (s : State) : Host.Outcome State Fault Refusal := keyEvent .digit5 s

/-- KEY_DIGIT_6: 43_workflow.md R154, R157, R160 in the three key-driven states. -/
def execKeyDigit6 (s : State) : Host.Outcome State Fault Refusal := keyEvent .digit6 s

/-- KEY_DIGIT_7: 43_workflow.md R154, R157, R160 in the three key-driven states. -/
def execKeyDigit7 (s : State) : Host.Outcome State Fault Refusal := keyEvent .digit7 s

/-- KEY_DIGIT_8: 43_workflow.md R154, R157, R160 in the three key-driven states. -/
def execKeyDigit8 (s : State) : Host.Outcome State Fault Refusal := keyEvent .digit8 s

/-- KEY_DIGIT_9: 43_workflow.md R154, R157, R160 in the three key-driven states. -/
def execKeyDigit9 (s : State) : Host.Outcome State Fault Refusal := keyEvent .digit9 s

/-- KEY_POWER: 43_workflow.md R154, R157, R160 in the three key-driven states. -/
def execKeyPower (s : State) : Host.Outcome State Fault Refusal := keyEvent .power s

/-- KEY_MENU: 43_workflow.md R154, R157, R160 in the three key-driven states. -/
def execKeyMenu (s : State) : Host.Outcome State Fault Refusal := keyEvent .menu s

/-- KEY_TEST: 43_workflow.md R154, R157, R160 in the three key-driven states. -/
def execKeyTest (s : State) : Host.Outcome State Fault Refusal := keyEvent .test s

/-- KEY_PLUS: 43_workflow.md R154, R157, R160 in the three key-driven states. -/
def execKeyPlus (s : State) : Host.Outcome State Fault Refusal := keyEvent .plus s

/-- KEY_MINUS: 43_workflow.md R154, R157, R160 in the three key-driven states. -/
def execKeyMinus (s : State) : Host.Outcome State Fault Refusal := keyEvent .minus s

/-- KEY_BACK: 43_workflow.md R154, R157, R160 in the three key-driven states. -/
def execKeyBack (s : State) : Host.Outcome State Fault Refusal := keyEvent .back s

/-- KEY_PREVIOUS: 43_workflow.md R154, R157, R160 in the three key-driven states. -/
def execKeyPrevious (s : State) : Host.Outcome State Fault Refusal := keyEvent .previous s

/-- KEY_PLAY: 43_workflow.md R153, R157, R160 in the three key-driven states. -/
def execKeyPlay (s : State) : Host.Outcome State Fault Refusal := keyEvent .play s

/-- KEY_NEXT: 43_workflow.md R154, R157, R160 in the three key-driven states. -/
def execKeyNext (s : State) : Host.Outcome State Fault Refusal := keyEvent .next s

/-- KEY_CLEAR: 43_workflow.md R154, R157, R160 in the three key-driven states. -/
def execKeyClear (s : State) : Host.Outcome State Fault Refusal := keyEvent .clear s

/-- KEY_UNRECOGNIZED: 43_workflow.md R154, R157, R160 in the three key-driven states. -/
def execKeyUnrecognized (s : State) : Host.Outcome State Fault Refusal := keyEvent .unrecognized s

end Sys2Proof.Machine
end

