-- ==== Sys2Proof/Machine/Reset.lean ====
section
/-! DEFINITION. The RESET operation (70_reset_and_hazards.md R230). -/

namespace Sys2Proof.Machine

/-- RESET: every register takes the value of 10_state.md R25; no output event (70_reset_and_hazards.md R230). -/
def execReset (s : State) : Host.Outcome State Fault Refusal := .next s.begin.resetRegisters

end Sys2Proof.Machine
end

