-- ==== Sys2Proof/Machine/Dispatch.lean ====
section
/-! DEFINITION. The dispatch: one arm per constructor of Instr. -/

namespace Sys2Proof.Machine

def exec (i : Instr) (s : State) : Host.Outcome State Fault Refusal :=
  match i with
  | .nop => Sys2Proof.Machine.execNop s
  | .edge t => Sys2Proof.Machine.execEdge t s
  | .poll now => Sys2Proof.Machine.execPoll now s
  | .prepDone => Sys2Proof.Machine.execPrepDone s
  | .schedCfg time valid => Sys2Proof.Machine.execSchedCfg time valid s
  | .mboxTake => Sys2Proof.Machine.execMboxTake s
  | .validate target current => Sys2Proof.Machine.execValidate target current s
  | .reached target current => Sys2Proof.Machine.execReached target current s
  | .reset => Sys2Proof.Machine.execReset s
  | .decode ncmd cmd naddr addr => Sys2Proof.Machine.execDecode ncmd cmd naddr addr s
  | .repeatCode g => Sys2Proof.Machine.execRepeatCode g s
  | .resolve command => Sys2Proof.Machine.execResolve command s
  | .publish k => Sys2Proof.Machine.execPublish k s
  | .symBit0 g => Sys2Proof.Machine.execSymBit0 g s
  | .symBit1 g => Sys2Proof.Machine.execSymBit1 g s
  | .symBad g => Sys2Proof.Machine.execSymBad g s
  | .symStale g => Sys2Proof.Machine.execSymStale g s
  | .keyDigit0 => Sys2Proof.Machine.execKeyDigit0 s
  | .keyDigit1 => Sys2Proof.Machine.execKeyDigit1 s
  | .keyDigit2 => Sys2Proof.Machine.execKeyDigit2 s
  | .keyDigit3 => Sys2Proof.Machine.execKeyDigit3 s
  | .keyDigit4 => Sys2Proof.Machine.execKeyDigit4 s
  | .keyDigit5 => Sys2Proof.Machine.execKeyDigit5 s
  | .keyDigit6 => Sys2Proof.Machine.execKeyDigit6 s
  | .keyDigit7 => Sys2Proof.Machine.execKeyDigit7 s
  | .keyDigit8 => Sys2Proof.Machine.execKeyDigit8 s
  | .keyDigit9 => Sys2Proof.Machine.execKeyDigit9 s
  | .keyPower => Sys2Proof.Machine.execKeyPower s
  | .keyMenu => Sys2Proof.Machine.execKeyMenu s
  | .keyTest => Sys2Proof.Machine.execKeyTest s
  | .keyPlus => Sys2Proof.Machine.execKeyPlus s
  | .keyMinus => Sys2Proof.Machine.execKeyMinus s
  | .keyBack => Sys2Proof.Machine.execKeyBack s
  | .keyPrevious => Sys2Proof.Machine.execKeyPrevious s
  | .keyPlay => Sys2Proof.Machine.execKeyPlay s
  | .keyNext => Sys2Proof.Machine.execKeyNext s
  | .keyClear => Sys2Proof.Machine.execKeyClear s
  | .keyUnrecognized => Sys2Proof.Machine.execKeyUnrecognized s

end Sys2Proof.Machine
end

