-- ==== Sys2Proof/Machine/Fetch.lean ====
section
/-! DEFINITION. Which presented word is applied next. The block fetches no instructions (10_state.md R18): the
environment presents operations (log 5), and an EDGE presented together with a loop-context operation is applied before
or after it (20_memory.md R50, log 6). -/

namespace Sys2Proof.Machine

/-- The next word to apply and the state with it taken from the input; `none` when nothing is presented. -/
def fetch (s : State) : Option (CodeWord × State) :=
  match s.port.input with
  | [] => none
  | .one w :: rest => some (w, { s with port := { s.port with input := rest } })
  | .both e l :: rest =>
    if Config.edgeFirst s.work.free then
      some (e, { s with port := { s.port with input := .one l :: rest }, work := { s.work with free := s.work.free + 1 } })
    else
      some (l, { s with port := { s.port with input := .one e :: rest }, work := { s.work with free := s.work.free + 1 } })

/-- The state with `w` presented before all that already waits. -/
def State.present (w : CodeWord) (s : State) : State :=
  { s with port := { s.port with input := .one w :: s.port.input } }

/-- One step without an operation: no strobe is active, so every register keeps its value (00_scope.md R8) and the
pulses of the operation before are over (R9). -/
def State.idle (s : State) : State := s.begin

end Sys2Proof.Machine
end

