-- ==== Sys2Proof/Machine/Step.lean ====
section
/-! DEFINITION. One step: the next presented word is decoded and applied as one atomic operation (00_scope.md R6). -/

namespace Sys2Proof.Machine

/-- One step of the machine. -/
def step (s : State) : Host.Outcome State Fault Refusal :=
  match fetch s with
  | none => .next s.idle
  | some (w, s') =>
    match decode w with
    | .instr i => exec i s'
    | .rejected r => .refused (.spellsNoOperation r)

/-- `s` with the table word of `nbits` bits presented as the next word to apply. -/
def State.withFetchWord (s : State) (nbits w : Nat) : State := s.present (tableWord nbits w)

end Sys2Proof.Machine
end

