-- ==== Sys2Proof/Machine/Trace.lean ====
section
/-! DEFINITION. The trace syntax and the pseudo-operations of 30_encoding.md R76 and R77: conveniences over the
operations, which carry no behaviour of their own. -/

namespace Sys2Proof.Machine

/-- The timestamps of the 32 edges that close data bits `j`, `j+1`, … after an edge at `prev`: 2250 later for a 1, 1125
for a 0 (30_encoding.md R77). `n` bits remain. -/
def dataEdges (w : BitVec 32) (prev : Timestamp) (j : Nat) : Nat → List Timestamp
  | 0 => []
  | n + 1 =>
    (prev + (if w.getLsbD j then 2250 else 1125)) ::
      dataEdges w (prev + (if w.getLsbD j then 2250 else 1125)) (j + 1) n

/-- The 34 timestamps of a nominal frame with word `w` (30_encoding.md R77). -/
def frameEdges (w : BitVec 32) (t0 : Timestamp) : List Timestamp :=
  t0 :: (t0 + Config.hdrNominal) :: dataEdges w (t0 + Config.hdrNominal) 0 Config.nData

/-- RAWFRAME b0 b1 b2 b3 @t0 (30_encoding.md R77). -/
def rawFrame (b0 b1 b2 b3 : Byte) (t0 : Timestamp) : List Instr :=
  (frameEdges (b3 ++ b2 ++ b1 ++ b0) t0).map Instr.edge

/-- FRAME addr cmd @t0 (30_encoding.md R77). -/
def nominalFrame (addr cmd : Byte) (t0 : Timestamp) : List Instr := rawFrame addr (~~~addr) cmd (~~~cmd) t0

/-- REPEAT @t0 (30_encoding.md R77). -/
def repeatPair (t0 : Timestamp) : List Instr := [.edge t0, .edge (t0 + 11250)]

/-- KEY name @t0: a frame from address 0 whose command a table maps to the key; defined only for a key in the table's
range (30_encoding.md R77). Where two entries have the key the first is taken (log 22). -/
def keyFrame (m : KeyMap) (k : LogicalKey) (t0 : Timestamp) : Option (List Instr) :=
  match m.find? (fun e => decide (e.2 = k)) with
  | none => none
  | some e => some (nominalFrame 0x00 e.1 t0)

/-- What one line of a trace spells (30_encoding.md R76). -/
inductive TraceLine where
  /-- Nothing but white space and a comment. -/
  | blank
  | op (i : Instr)
  /-- No operation of the syntax (log 22). -/
  | bad
  deriving DecidableEq, Repr

/-- The line without its comment. -/
def cutComment : List Char → List Char
  | [] => []
  | c :: rest => if c = '#' then [] else c :: cutComment rest

/-- The words of a line, separated by white space; `cur` is the word begun, reversed. -/
def splitWords (cur : List Char) : List Char → List (List Char)
  | [] => if cur = [] then [] else [cur.reverse]
  | c :: rest =>
    if c = ' ' ∨ c = '\t' ∨ c = '\r' then
      (if cur = [] then splitWords [] rest else cur.reverse :: splitWords [] rest)
    else splitWords (c :: cur) rest

/-- The value of a digit in a base of at most 16. -/
def digitValue (base : Nat) (c : Char) : Option Nat :=
  let n := c.toNat
  let v := if 48 ≤ n ∧ n ≤ 57 then n - 48
    else if 97 ≤ n ∧ n ≤ 102 then n - 87
    else if 65 ≤ n ∧ n ≤ 70 then n - 55
    else 16
  if v < base then some v else none

/-- The number some digits spell, after `acc`. -/
def digitsValue (base acc : Nat) : List Char → Option Nat
  | [] => some acc
  | c :: rest =>
    match digitValue base c with
    | none => none
    | some v => digitsValue base (acc * base + v) rest

/-- A number: decimal, or `0x` hexadecimal (30_encoding.md R76). -/
def numberOf : List Char → Option Nat
  | [] => none
  | '0' :: 'x' :: [] => none
  | '0' :: 'x' :: c :: rest => digitsValue 16 0 (c :: rest)
  | c :: rest => digitsValue 10 0 (c :: rest)

/-- All the numbers of some words. -/
def numbersOf : List (List Char) → Option (List Nat)
  | [] => some []
  | w :: rest =>
    match numberOf w, numbersOf rest with
    | some n, some ns => some (n :: ns)
    | _, _ => none

/-- A number that fits a byte. -/
def byteOf (n : Nat) : Option Byte := if n < 256 then some (BitVec.ofNat 8 n) else none

/-- Four numbers as a `Time4`, in the order day, month, hour, minute (30_encoding.md R76). -/
def timeOf (d mo h mi : Nat) : Option Time4 :=
  match byteOf d, byteOf mo, byteOf h, byteOf mi with
  | some d, some mo, some h, some mi => some { day := d, month := mo, hour := h, minute := mi }
  | _, _, _, _ => none

/-- The operation a mnemonic and its numbers spell (30_encoding.md R76). -/
def operationOf (mnemonic : List Char) (ns : List Nat) : Option Instr :=
  if mnemonic = ['R', 'E', 'S', 'E', 'T'] then (match ns with | [] => some .reset | _ => none)
  else if mnemonic = ['N', 'O', 'P'] then (match ns with | [] => some .nop | _ => none)
  else if mnemonic = ['E', 'D', 'G', 'E'] then
    (match ns with | [t] => if t < 2 ^ 32 then some (.edge (BitVec.ofNat 32 t)) else none | _ => none)
  else if mnemonic = ['P', 'O', 'L', 'L'] then
    (match ns with | [d, mo, h, mi] => (timeOf d mo h mi).map Instr.poll | _ => none)
  else if mnemonic = ['P', 'R', 'E', 'P', '_', 'D', 'O', 'N', 'E'] then
    (match ns with | [] => some .prepDone | _ => none)
  else if mnemonic = ['S', 'C', 'H', 'E', 'D', '_', 'C', 'F', 'G'] then
    (match ns with
      | [d, mo, h, mi, v] =>
        if v = 0 then (timeOf d mo h mi).map (fun t => .schedCfg t false)
        else if v = 1 then (timeOf d mo h mi).map (fun t => .schedCfg t true)
        else none
      | _ => none)
  else if mnemonic = ['M', 'B', 'O', 'X', '_', 'T', 'A', 'K', 'E'] then
    (match ns with | [] => some .mboxTake | _ => none)
  else if mnemonic = ['V', 'A', 'L', 'I', 'D', 'A', 'T', 'E'] then
    (match ns with
      | [d, mo, h, mi, d', mo', h', mi'] =>
        (match timeOf d mo h mi, timeOf d' mo' h' mi' with
          | some t, some c => some (.validate t c)
          | _, _ => none)
      | _ => none)
  else if mnemonic = ['R', 'E', 'A', 'C', 'H', 'E', 'D'] then
    (match ns with
      | [d, mo, h, mi, d', mo', h', mi'] =>
        (match timeOf d mo h mi, timeOf d' mo' h' mi' with
          | some t, some c => some (.reached t c)
          | _, _ => none)
      | _ => none)
  else none

/-- One line of a trace: one of the nine operations (30_encoding.md R76). A line that begins with the name of a
pseudo-operation (RAWFRAME, FRAME, REPEAT, KEY) is bad: R76 does not list them and R77 gives their expansion only, so a
trace spells the expansion (mark: DESIGN CHOICE, log 22). -/
def parseLine (line : List Char) : TraceLine :=
  match splitWords [] (cutComment line) with
  | [] => .blank
  | mnemonic :: args =>
    match numbersOf args with
    | none => .bad
    | some ns =>
      match operationOf mnemonic ns with
      | none => .bad
      | some i => .op i

end Sys2Proof.Machine
end

