-- ==== Sys2Proof/Safety.lean ====
section
/-! DEFINITION. What counts as a good state (10_state.md R23) and as a run within the environment's contract
(70_reset_and_hazards.md R241), in the terms the statements use. -/

namespace Sys2Proof.Safety

open Sys2Proof.Machine

/-- Items 1 to 3 of 10_state.md R23, over EB_CNT and the cells. -/
structure LegalCapture (c : Capture) : Prop where
  /-- Item 1: EB_CNT <= 33. -/
  countInRange : c.ebCnt.toNat ≤ 33
  /-- Item 2: every cell below EB_CNT has been written. -/
  written : ∀ i, i < c.ebCnt.toNat → ∃ t, c.cells.read i = some t
  /-- Item 3: consecutive stored edges are at most T_SILENCE apart. -/
  gapsShort : ∀ i a b, i + 1 < c.ebCnt.toNat → c.cells.read i = some a → c.cells.read (i + 1) = some b →
    (dt b a).toNat ≤ 15000
  /-- Item 3: the first gap of a buffer is not a repeat gap. -/
  firstGapNoRepeat : ∀ a b, 2 ≤ c.ebCnt.toNat → c.cells.read 0 = some a → c.cells.read 1 = some b →
    ¬ (9563 ≤ (dt b a).toNat ∧ (dt b a).toNat ≤ 12937)

/-- Items 1 to 3 of 10_state.md R23, and the memory is in canonical form. -/
structure CaptureInv (c : Capture) : Prop extends LegalCapture c where
  /-- The memory is in canonical form. -/
  canonical : c.cells.wf = true

/-- Item 5 of 10_state.md R23: the workflow registers are the canonical image of a workflow state. -/
def WorkflowInv (r : WorkflowRegs) : Prop := ∃ w, viewOf r = .live w

/-- Item 6 of 10_state.md R23 without its last clause: a pending key is one of the 21 logical keys. -/
def MailboxInv (m : Mailbox) : Prop := m.pressed = true → ∃ k, m.key = codeOfKey k

/-- Item 6 of 10_state.md R23 in full: a pending key is UNRECOGNIZED or in the range of KEYMAP. -/
def MailboxFromKeymap (m : Mailbox) : Prop :=
  m.pressed = true → m.key = codeOfKey .unrecognized ∨ ∃ e ∈ keymap, m.key = codeOfKey e.2

/-- The invariant every row of the table keeps. -/
structure RowInv (s : State) : Prop where
  capture : CaptureInv s.capture
  workflow : WorkflowInv s.workflow
  mailbox : MailboxInv s.mailbox

/-- 10_state.md R23 in full, which the nine operations keep. -/
structure BlockInv (s : State) : Prop where
  capture : CaptureInv s.capture
  workflow : WorkflowInv s.workflow
  mailbox : MailboxFromKeymap s.mailbox

/-- The four groups of the block's own state agree (10_state.md R10). -/
def SameBlock (s t : State) : Prop :=
  t.capture = s.capture ∧ t.decoder = s.decoder ∧ t.mailbox = s.mailbox ∧ t.workflow = s.workflow

/-- The gap spells the bit `b` (41_frame_decode.md R112). -/
def SpellsBit (b : Bool) (g : Gap) : Prop :=
  if b = true then 1913 ≤ g.toNat ∧ g.toNat ≤ 2587 else 957 ≤ g.toNat ∧ g.toNat ≤ 1293

/-- The instructions applied one after the other, up to the first that does not answer a next state. -/
def applyAll : List Instr → State → Host.Outcome State Fault Refusal
  | [], s => .next s
  | i :: rest, s =>
    match exec i s with
    | .next t => applyAll rest t
    | .fault f => .fault f
    | .refused r => .refused r

/-- What the environment's contract allows next (70_reset_and_hazards.md R241), with the clock source reading `clock`: no
POLL during a blocking call, PREP_DONE and SCHED_CFG only as the answer to a request, `valid` computed by VALIDATE. The
rows the environment never applies (00_scope.md R6) are not allowed. MBOX_TAKE is allowed in every workflow state, as
R241's own row has it; 93_implementation_defined.md U17 and 92_eei_decisions.md D20 call a take outside Scheduling excluded
(mark: DESIGN CHOICE, log 24). The machine does not enforce the contract (log 17). -/
def contractAllows (clock : Time4) (s : State) : Instr → Bool
  | .nop => true
  | .edge _ => true
  | .poll _ =>
    (match s.view with
      | .live (.brewing _ _) => false
      | .live (.scheduling _) => false
      | _ => true)
  | .prepDone =>
    (match s.view with
      | .live (.brewing _ _) => true
      | _ => false)
  | .schedCfg time valid =>
    (match s.view with
      | .live (.scheduling _) => decide (valid = isLater time clock)
      | _ => false)
  | .mboxTake => true
  | .validate _ _ => true
  | .reached _ _ => true
  | .reset => true
  | .decode _ _ _ _ => false
  | .repeatCode _ => false
  | .resolve _ => false
  | .publish _ => false
  | .symBit0 _ => false
  | .symBit1 _ => false
  | .symBad _ => false
  | .symStale _ => false
  | .keyDigit0 => false | .keyDigit1 => false | .keyDigit2 => false | .keyDigit3 => false | .keyDigit4 => false
  | .keyDigit5 => false | .keyDigit6 => false | .keyDigit7 => false | .keyDigit8 => false | .keyDigit9 => false
  | .keyPower => false | .keyMenu => false | .keyTest => false | .keyPlus => false | .keyMinus => false
  | .keyBack => false | .keyPrevious => false | .keyPlay => false | .keyNext => false | .keyClear => false
  | .keyUnrecognized => false

/-- True times in microseconds that never decrease, as the contract asks of consecutive edges
(70_reset_and_hazards.md R241). -/
def neverDecreases : List Nat → Bool
  | [] => true
  | a :: rest =>
    (match rest with
      | [] => true
      | b :: _ => decide (a ≤ b)) && neverDecreases rest

/-- The timestamp of a true time: its value modulo 2^32 (70_reset_and_hazards.md R241, R242). -/
def stampOf (trueTime : Nat) : Timestamp := BitVec.ofNat 32 trueTime

end Sys2Proof.Safety
end

