-- ==== Sys2Proof/Certificates/Slice0/Obligations.lean ====
section
/-! DEFINITION. The statements for the provers, one definition each. They come from the numbered rules of spec/; what
rests on a choice of the model names its log entry. -/

open Sys2Proof Sys2Proof.Machine Sys2Proof.Safety

/-- For every well-formed instruction, with every operand its encoding admits, decode (encode i) is i. The gap words of
the symbol rows and the two uses of a key code are the model's choice of presentation (log 10). (R61, R63, R65, R67,
R72, R73, R112, R113.) -/
def Obligations.DecodeInvertsEncode : Prop :=
  ∀ i : Instr, i.wf = true → decode (encode i) = .instr i

/-- Whatever presented word decodes to an instruction, that instruction is well formed and its encoding is that word: no
two words spell one instruction and no bit is ignored (presentation forms: log 10). (R61, R63, R65, R67, R72, R73,
R74.) -/
def Obligations.DecodedWordsAreEncodings : Prop :=
  ∀ (w : CodeWord) (i : Instr), decode w = .instr i → i.wf = true ∧ encode i = w

/-- The words of POLL 12 5 7 30, SCHED_CFG 12 5 7 30 1, VALIDATE 12 5 7 30 11 5 22 0, EDGE 68500 and RESET, as
spec/95_test_vectors.md writes them, and the frame word 0x57A8FF00, decode to those operations. (95_test_vectors.md
section 7, R72, R73.) -/
def Obligations.SampleWordsDecodeAsWritten : Prop :=
  decode (.op 0x02000000000C05071E) = .instr (.poll { day := 12, month := 5, hour := 7, minute := 30 }) ∧
  decode (.op 0x040C05071E00000001) =
    .instr (.schedCfg { day := 12, month := 5, hour := 7, minute := 30 } true) ∧
  decode (.op 0x060C05071E0B051600) =
    .instr (.validate { day := 12, month := 5, hour := 7, minute := 30 }
      { day := 11, month := 5, hour := 22, minute := 0 }) ∧
  decode (.op 0x010000000000010B94) = .instr (.edge 68500) ∧
  decode (.op 0xFF0000000000000000) = .instr .reset ∧
  decode (.frame 0x57A8FF00) = .instr (.decode 0x57 0xA8 0xFF 0x00)

/-- For every gap: it is in the BIT0, BIT1 or RPT window iff it is in 957..1293, 1913..2587 or 9563..12937, iff its
distance from 1125, 2250 or 11250 is at most 15 percent, iff it is strictly below 15 percent; and it is in at most
one window. (R61.) -/
def Obligations.ToleranceWindowsAreExact : Prop :=
  ∀ g : Gap,
  (isBit0 g = true ↔ 957 ≤ g.toNat ∧ g.toNat ≤ 1293) ∧ (isBit0 g = withinTolerance 1125 g) ∧
  (isBit1 g = true ↔ 1913 ≤ g.toNat ∧ g.toNat ≤ 2587) ∧ (isBit1 g = withinTolerance 2250 g) ∧
  (isRepeatGap g = true ↔ 9563 ≤ g.toNat ∧ g.toNat ≤ 12937) ∧ (isRepeatGap g = withinTolerance 11250 g) ∧
  (isBit0 g = true ↔ 85 * 1125 < 100 * g.toNat ∧ 100 * g.toNat < 115 * 1125) ∧
  (isBit1 g = true ↔ 85 * 2250 < 100 * g.toNat ∧ 100 * g.toNat < 115 * 2250) ∧
  (isRepeatGap g = true ↔ 85 * 11250 < 100 * g.toNat ∧ 100 * g.toNat < 115 * 11250) ∧
  ¬ (isBit0 g = true ∧ isBit1 g = true) ∧ ¬ (isBit1 g = true ∧ isRepeatGap g = true) ∧
  ¬ (isBit0 g = true ∧ isRepeatGap g = true)

/-- An operation word with OPC in 0x08..0xFE is rejected as unassigned, whatever its operands; a word of NOP, PREP_DONE,
MBOX_TAKE or RESET with any operand bit set, of EDGE or POLL with A non-zero, or of SCHED_CFG with any of B[31:1]
set is rejected as must-be-zero. (R72, R74.) -/
def Obligations.UnassignedWordsSpellNothing : Prop :=
  ∀ (o : BitVec 8) (a b : BitVec 32),
  (8 ≤ o.toNat → o.toNat ≤ 254 → decode (.op (opWord o a b)) = .rejected .unassignedOpcode) ∧
  ((o = 0x00 ∨ o = 0x03 ∨ o = 0x05 ∨ o = 0xFF) → (a ≠ 0 ∨ b ≠ 0) →
    decode (.op (opWord o a b)) = .rejected .mustBeZero) ∧
  ((o = 0x01 ∨ o = 0x02) → a ≠ 0 → decode (.op (opWord o a b)) = .rejected .mustBeZero) ∧
  (o = 0x04 → b ≠ 0 → b ≠ 1 → decode (.op (opWord o a b)) = .rejected .mustBeZero)

/-- With an empty buffer the edge is stored in cell 0 whatever its timestamp. In a legal image (R23 items 1 to 3) with a
last stored edge more than 15000 before it (modulo 2^32) the buffer is reset and the edge becomes cell 0, leaving
EB_CNT 1; no other cell, register or event changes. At a gap of exactly 15000 the buffer is kept and the edge
appended. (R91.) -/
def Obligations.EdgeStaleCheckRestartsBuffer : Prop :=
  (∀ (s : State) (t : Timestamp), s.capture.ebCnt = 0 →
    exec (.edge t) s = .next { s.begin with capture := { cells := s.capture.cells.write 0 t, ebCnt := 1 } }) ∧
  (∀ (s : State) (t last : Timestamp), LegalCapture s.capture → s.capture.ebCnt ≠ 0 →
    s.capture.cells.read (s.capture.ebCnt.toNat - 1) = some last → 15000 < (dt t last).toNat →
    exec (.edge t) s = .next { s.begin with capture := { cells := s.capture.cells.write 0 t, ebCnt := 1 } }) ∧
  (∀ (s : State) (t last : Timestamp), LegalCapture s.capture → s.capture.ebCnt ≠ 0 →
    s.capture.ebCnt.toNat ≤ 32 → s.capture.cells.read (s.capture.ebCnt.toNat - 1) = some last →
    (dt t last).toNat = 15000 →
    exec (.edge t) s = .next { s.begin with
      capture := { cells := s.capture.cells.write s.capture.ebCnt.toNat t, ebCnt := s.capture.ebCnt + 1 } })

/-- In a legal image (R23 items 1 to 3) with EB_CNT at most 32, and the buffer empty or the gap since the last stored
edge at most 15000 and not a repeat gap at the second edge, EDGE stores t in cell EB_CNT and adds 1 to EB_CNT;
nothing else changes and nothing is emitted. (R94, R90, R93.) -/
def Obligations.EdgeAppendsWithinBuffer : Prop :=
  ∀ (s : State) (t : Timestamp), LegalCapture s.capture → s.capture.ebCnt.toNat ≤ 32 →
  (s.capture.ebCnt = 0 ∨ ∃ last, s.capture.cells.read (s.capture.ebCnt.toNat - 1) = some last ∧
    (dt t last).toNat ≤ 15000 ∧
    ¬ (s.capture.ebCnt = 1 ∧ 9563 ≤ (dt t last).toNat ∧ (dt t last).toNat ≤ 12937)) →
  exec (.edge t) s = .next { s.begin with
    capture := { cells := s.capture.cells.write s.capture.ebCnt.toNat t, ebCnt := s.capture.ebCnt + 1 } }

/-- With exactly one stored edge and a gap in 9563..12937 the buffer is reset and no cell written; if a frame was ever
accepted its pair is emitted as a Repeat and its key published, else nothing is emitted. At gaps 9562 and 12938 the
edge is appended as cell 1; in a legal image (R23 items 1 to 3) with 2 to 32 edges stored a gap in the window is
appended like any other. (R93.) -/
def Obligations.EdgeDetectsRepeatAtSecondEdge : Prop :=
  (∀ (s : State) (t f : Timestamp), s.capture.ebCnt = 1 → s.capture.cells.read 0 = some f →
    9563 ≤ (dt t f).toNat → (dt t f).toNat ≤ 12937 →
    (s.decoder.valid = true → exec (.edge t) s = .next { s.begin with
      capture := { s.capture with ebCnt := 0 }
      mailbox := { pressed := true, key := codeOfKey (resolveWith keymap s.decoder.cmd) }
      port := { s.begin.port with events :=
        [.frame s.decoder.addr s.decoder.cmd .repeated, .keyPublished (resolveWith keymap s.decoder.cmd)] } }) ∧
    (s.decoder.valid = false → exec (.edge t) s = .next { s.begin with capture := { s.capture with ebCnt := 0 } })) ∧
  (∀ (s : State) (t f : Timestamp), s.capture.ebCnt = 1 → s.capture.cells.read 0 = some f →
    ((dt t f).toNat = 9562 ∨ (dt t f).toNat = 12938) →
    exec (.edge t) s = .next { s.begin with capture := { cells := s.capture.cells.write 1 t, ebCnt := 2 } }) ∧
  (∀ (s : State) (t last : Timestamp), LegalCapture s.capture → 2 ≤ s.capture.ebCnt.toNat →
    s.capture.ebCnt.toNat ≤ 32 →
    s.capture.cells.read (s.capture.ebCnt.toNat - 1) = some last →
    9563 ≤ (dt t last).toNat → (dt t last).toNat ≤ 12937 →
    exec (.edge t) s = .next { s.begin with
      capture := { cells := s.capture.cells.write s.capture.ebCnt.toNat t, ebCnt := s.capture.ebCnt + 1 } })

/-- If the header gap is at most 15000 and no repeat gap (R98; it is not otherwise checked), the 32 data gaps of a full
buffer spell the bits of a word w, first gap first into bit 0, and the complements hold, the 34th EDGE records
address W[7:0] and command W[23:16], emits exactly one Frame and one KeyPublished, fills the mailbox with the
resolved key and resets EB_CNT; all else stays. (The cleared working word and the form of the events are the
model's, log 9 and log 7.) (R95, R98, R110, R111, R112, R114, R116, R117, R118, R130.) -/
def Obligations.EdgeDecodesCompleteFrame : Prop :=
  ∀ (s : State) (x : Nat → Timestamp) (w : BitVec 32), s.capture.ebCnt = 33 →
  (∀ i, i ≤ 32 → s.capture.cells.read i = some (x i)) →
  (dt (x 1) (x 0)).toNat ≤ 15000 → ¬ (9563 ≤ (dt (x 1) (x 0)).toNat ∧ (dt (x 1) (x 0)).toNat ≤ 12937) →
  (∀ j, j < 32 → SpellsBit (w.getLsbD j) (dt (x (j + 2)) (x (j + 1)))) →
  frameAddress w = ~~~ frameNaddr w → frameCommand w = ~~~ frameNcmd w →
  exec (.edge (x 33)) s = .next { s.begin with
    capture := { cells := s.capture.cells.write 33 (x 33), ebCnt := 0 }
    decoder := { valid := true, addr := w.extractLsb' 0 8, cmd := w.extractLsb' 16 8 }
    mailbox := { pressed := true, key := codeOfKey (resolveWith keymap (w.extractLsb' 16 8)) }
    port := { s.begin.port with events :=
      [.frame (w.extractLsb' 0 8) (w.extractLsb' 16 8) .normal,
       .keyPublished (resolveWith keymap (w.extractLsb' 16 8))] }
    work := { s.work with acc := 0 } }

/-- If the header gap is one R98 admits and the 32 data gaps spell a word whose address or command is not the complement
of its inverse byte, the 34th EDGE writes its cell, resets EB_CNT and emits nothing: LAST_*, the mailbox and the
workflow stay. (The trace label and the cleared working word are the model's, log 7 and log 9.) (R117, R119, R202,
R95, R98.) -/
def Obligations.EdgeDropsFrameWithBadChecksum : Prop :=
  ∀ (s : State) (x : Nat → Timestamp) (w : BitVec 32), s.capture.ebCnt = 33 →
  (∀ i, i ≤ 32 → s.capture.cells.read i = some (x i)) →
  (dt (x 1) (x 0)).toNat ≤ 15000 → ¬ (9563 ≤ (dt (x 1) (x 0)).toNat ∧ (dt (x 1) (x 0)).toNat ≤ 12937) →
  (∀ j, j < 32 → SpellsBit (w.getLsbD j) (dt (x (j + 2)) (x (j + 1)))) →
  ¬ (w.extractLsb' 0 8 = ~~~ w.extractLsb' 8 8 ∧ w.extractLsb' 16 8 = ~~~ w.extractLsb' 24 8) →
  exec (.edge (x 33)) s = .next { s.begin with
    capture := { cells := s.capture.cells.write 33 (x 33), ebCnt := 0 }
    port := { s.begin.port with dropped := some .checksumFail }
    work := { s.work with acc := 0 } }

/-- If any of the 32 data gaps of a full buffer is outside 957..1293 and outside 1913..2587 (every gap at most 15000 and
the first no repeat gap, as R98 has it), the 34th EDGE writes its cell, resets EB_CNT and emits nothing: LAST_*, the
mailbox and the workflow stay. (The trace label and the cleared working word are the model's, log 7 and log 9.)
(R113, R119, R201, R95, R98.) -/
def Obligations.EdgeDropsFrameWithBadTiming : Prop :=
  ∀ (s : State) (x : Nat → Timestamp) (k : Nat), s.capture.ebCnt = 33 →
  (∀ i, i ≤ 32 → s.capture.cells.read i = some (x i)) → (∀ i, i ≤ 32 → (dt (x (i + 1)) (x i)).toNat ≤ 15000) →
  ¬ (9563 ≤ (dt (x 1) (x 0)).toNat ∧ (dt (x 1) (x 0)).toNat ≤ 12937) →
  k < 32 → ¬ SpellsBit false (dt (x (k + 2)) (x (k + 1))) → ¬ SpellsBit true (dt (x (k + 2)) (x (k + 1))) →
  exec (.edge (x 33)) s = .next { s.begin with
    capture := { cells := s.capture.cells.write 33 (x 33), ebCnt := 0 }
    port := { s.begin.port with dropped := some .badTiming }
    work := { s.work with acc := 0 } }

/-- Whenever EDGE answers a next state: the workflow registers, the input and the free counter are as before; every cell
other than the one at the count after the stale check reads as before, and on a repeat every cell does; LAST_* is as
before or valid; the mailbox is as before or holds a published key. (R42, R46, R90.) -/
def Obligations.EdgeFrameConditions : Prop :=
  ∀ (s s' : State) (t : Timestamp), exec (.edge t) s = .next s' →
  s'.workflow = s.workflow ∧ s'.port.input = s.port.input ∧ s'.port.result = none ∧ s'.work.free = s.work.free ∧
  (∀ c, staleCheck t s.capture = .ok c →
    (∀ i, i ≠ c.ebCnt.toNat → s'.capture.cells.read i = s.capture.cells.read i) ∧
    (repeatTest t c = .ok true → ∀ i, s'.capture.cells.read i = s.capture.cells.read i)) ∧
  (s'.decoder = s.decoder ∨ s'.decoder.valid = true) ∧
  (s'.mailbox = s.mailbox ∨ ∃ k, s'.mailbox = { pressed := true, key := codeOfKey k })

/-- 93_implementation_defined.md U15 gives EDGE with EB_CNT >= 34 no behaviour and R23 says that a model should refuse
the images outside its items: with EB_CNT of 34 or more an edge is refused; with a cell below EB_CNT unwritten it
faults on such a cell; with all of them written and a stored gap above 15000, or a first gap in 9563..12937, it is
refused. The stops' names, and that SYM_STALE stops with EDGE, are the model's choice (log 13).
(93_implementation_defined.md U15, R11, R23.) -/
def Obligations.EdgesStopInIllegalCaptureImages : Prop :=
  ∀ (i : Instr) (s : State), (∃ t, i = .edge t) ∨ (∃ g, i = .symStale g) →
  (34 ≤ s.capture.ebCnt.toNat → exec i s = .refused .edgeCountOutOfRange) ∧
  (s.capture.ebCnt.toNat ≤ 33 → (∃ j, j < s.capture.ebCnt.toNat ∧ s.capture.cells.read j = none) →
    ∃ j, j < s.capture.ebCnt.toNat ∧ s.capture.cells.read j = none ∧ exec i s = .fault (.cellHoldsNoValue j)) ∧
  (s.capture.ebCnt.toNat ≤ 33 → (∀ j, j < s.capture.ebCnt.toNat → ∃ t, s.capture.cells.read j = some t) →
    ((∃ j a b, j + 1 < s.capture.ebCnt.toNat ∧ s.capture.cells.read j = some a ∧
        s.capture.cells.read (j + 1) = some b ∧ 15000 < (dt b a).toNat) ∨
      (∃ a b, 2 ≤ s.capture.ebCnt.toNat ∧ s.capture.cells.read 0 = some a ∧ s.capture.cells.read 1 = some b ∧
        9563 ≤ (dt b a).toNat ∧ (dt b a).toNat ≤ 12937)) →
    exec i s = .refused .captureImageOutsideInvariant)

/-- Two states that agree but for cells at or above EB_CNT stay so under EDGE: if one answers a next state so does the
other, with the same registers, events and results, and with equal cells below the new EB_CNT. (R11, R21, R23, R95.) -/
def Obligations.CellsBeyondCountUnobservable : Prop :=
  ∀ (s u : State) (m : Memory) (t : Timestamp),
  (∀ i, i < s.capture.ebCnt.toNat → m.read i = s.capture.cells.read i) → exec (.edge t) s = .next u →
  ∃ v, exec (.edge t) { s with capture := { s.capture with cells := m } } = .next v ∧
    v.capture.ebCnt = u.capture.ebCnt ∧ v.decoder = u.decoder ∧ v.mailbox = u.mailbox ∧
    v.workflow = u.workflow ∧ v.port = u.port ∧ v.work = u.work ∧
    ∀ i, i < u.capture.ebCnt.toNat → v.capture.cells.read i = u.capture.cells.read i

/-- With LAST_VALID = 0 the contents of LAST_ADDR and LAST_CMD make no difference to EDGE: every other register, event
and result is the same, and LAST_* is either left as it was in both runs or written alike in both. (R13, R21, R23.) -/
def Obligations.EmptyLastDecodeUnobservable : Prop :=
  ∀ (s u : State) (d : LastDecode) (t : Timestamp), s.decoder.valid = false → d.valid = false →
  exec (.edge t) s = .next u →
  ∃ v, exec (.edge t) { s with decoder := d } = .next v ∧ v.capture = u.capture ∧ v.mailbox = u.mailbox ∧
    v.workflow = u.workflow ∧ v.port = u.port ∧ v.work = u.work ∧
    ((u.decoder = s.decoder ∧ v.decoder = d) ∨ v.decoder = u.decoder)

/-- The row DECODE with bytes ncmd, cmd, naddr, addr: if addr = ~naddr and cmd = ~ncmd then LAST_* becomes (1, addr,
cmd) and exactly the Normal Frame is emitted; otherwise no register of the block changes and nothing is emitted.
Applying the row on its own and the cleared working word are the model's (log 8, log 9). (R116, R117, R118, R119.) -/
def Obligations.DecodeAcceptsComplementedWords : Prop :=
  ∀ (s : State) (ncmd cmd naddr addr : Byte),
  ((addr = ~~~ naddr ∧ cmd = ~~~ ncmd) → exec (.decode ncmd cmd naddr addr) s = .next { s.begin with
    decoder := { valid := true, addr := addr, cmd := cmd }
    port := { s.begin.port with events := [.frame addr cmd .normal] }
    work := { s.work with acc := 0 } }) ∧
  (¬ (addr = ~~~ naddr ∧ cmd = ~~~ ncmd) → exec (.decode ncmd cmd naddr addr) s = .next { s.begin with
    port := { s.begin.port with dropped := some .checksumFail }
    work := { s.work with acc := 0 } })

/-- The row REPEAT: with LAST_VALID = 1 it emits Frame{LAST_ADDR, LAST_CMD, Repeat} and writes no register; with
LAST_VALID = 0 it does nothing. The gap that spells it is not read. (Applied on its own it only emits; EDGE also
publishes, log 8.) (R120, R121.) -/
def Obligations.RepeatReplaysLastPair : Prop :=
  ∀ (s : State) (g : Gap),
  (s.decoder.valid = true → exec (.repeatCode g) s = .next { s.begin with
    port := { s.begin.port with events := [.frame s.decoder.addr s.decoder.cmd .repeated] } }) ∧
  (s.decoder.valid = false → exec (.repeatCode g) s = .next s.begin)

/-- For every address and command there is exactly one 32-bit word with these bytes that passes both complement tests,
and it is ~cmd ++ cmd ++ ~addr ++ addr. (R63, R64, R117.) -/
def Obligations.LegalFrameWordsOnePerPair : Prop :=
  ∀ (addr cmd : Byte) (w : BitVec 32),
  (checksumOk w = true ∧ frameAddress w = addr ∧ frameCommand w = cmd) ↔
    w = ~~~ cmd ++ cmd ++ ~~~ addr ++ addr

/-- The rows SYM_BIT0 and SYM_BIT1 change the working word only: bit 31 becomes the bit they spell and every other bit
takes the value of the bit above it. The working word as state is the model's (log 9). (R112, R114.) -/
def Obligations.BitSymbolsShiftIntoWord : Prop :=
  ∀ (s : State) (g : Gap),
  (∃ w, exec (.symBit0 g) s = .next { s.begin with work := { s.work with acc := w } } ∧
    w.getLsbD 31 = false ∧ ∀ i, i < 31 → w.getLsbD i = s.work.acc.getLsbD (i + 1)) ∧
  (∃ w, exec (.symBit1 g) s = .next { s.begin with work := { s.work with acc := w } } ∧
    w.getLsbD 31 = true ∧ ∀ i, i < 31 → w.getLsbD i = s.work.acc.getLsbD (i + 1))

/-- Each classified gap sets W to (W >> 1) | (b << 31); after 32 gaps, starting from 0, bit j of the word is the bit
that gap j spells, for every j. The second clause is what R114 marks as derived from its mechanism, the reading that
conflict C1 follows. (R114, 90_conflicts.md C1.) -/
def Obligations.AssembledBitsArriveLowestFirst : Prop :=
  (∀ (w : BitVec 32) (g : Gap) (rest : List Gap) (b : Bool), classifyGap g = some b →
    assembleWord w (g :: rest) =
      assembleWord ((w >>> 1) ||| ((if b = true then (1 : BitVec 32) else 0) <<< 31)) rest) ∧
  (∀ (gs : List Gap) (w : BitVec 32), gs.length = 32 → assembleWord 0 gs = some w →
    ∀ (j : Nat) (h : j < gs.length), classifyGap gs[j] = some (w.getLsbD j))

/-- From an empty working word, the symbol rows that 32 good gaps spell assemble the word EDGE's decode computes and
change no register of the block; the DECODE row on that word then leaves LAST_* as EDGE's decode of those gaps
leaves it. The rows applied on their own are the model's (log 8, log 9). (R110, R112, R114, R118.) -/
def Obligations.SymbolStepsAgreeWithEdgeDecode : Prop :=
  ∀ (s : State) (gs : List Gap) (w : BitVec 32), gs.length = 32 → s.work.acc = 0 → assembleWord 0 gs = some w →
  ∃ t u, applyAll (gs.map decodeDataGap) s = .next t ∧ t.work.acc = w ∧ SameBlock s t ∧
    exec (decodeFrameWord w) t = .next u ∧
    u.decoder = (decodeAndPublish keymap (some w) s).decoder ∧
    u.capture = s.capture ∧ u.workflow = s.workflow

/-- The row SYM_BAD resets EB_CNT and discards the partial word; LAST_*, the mailbox, the workflow and every cell stay
and nothing is emitted. Its effect on its own is read from R113 and R201 (log 12). (R113, R201.) -/
def Obligations.BadSymbolDropsFrame : Prop :=
  ∀ (s : State) (g : Gap), exec (.symBad g) s = .next { s.begin with
  capture := { s.capture with ebCnt := 0 }
  port := { s.begin.port with dropped := some .badTiming }
  work := { s.work with acc := 0 } }

/-- In a legal image (R23 items 1 to 3) with a non-empty buffer, the row SYM_STALE makes the edge g later cell 0 of a
new buffer; for a gap above 15000 that is exactly what EDGE at that timestamp does. With an empty buffer it changes
nothing, the model's choice (log 12). (R62, R91.) -/
def Obligations.StaleSymbolActsAsStaleEdge : Prop :=
  (∀ (s : State) (g : Gap) (last : Timestamp), LegalCapture s.capture → s.capture.ebCnt ≠ 0 →
    s.capture.cells.read (s.capture.ebCnt.toNat - 1) = some last →
    exec (.symStale g) s = .next { s.begin with
      capture := { cells := s.capture.cells.write 0 (last + g), ebCnt := 1 } } ∧
    (15000 < g.toNat → exec (.symStale g) s = exec (.edge (last + g)) s)) ∧
  (∀ (s : State) (g : Gap), s.capture.ebCnt = 0 → exec (.symStale g) s = .next s.begin)

/-- For every entry of KEYMAP, RESOLVE of its command byte returns its key; for a byte that is in no entry it returns
UNRECOGNIZED. No register of the block changes and nothing is emitted. KEYMAP is the open parameter (log 4). (R65,
R131.) -/
def Obligations.ResolveFollowsKeymap : Prop :=
  (∀ (s : State) (e : Byte × LogicalKey), e ∈ keymap → exec (.resolve e.1) s = .next { s.begin with
    port := { s.begin.port with result := some (.resolved e.2) } }) ∧
  (∀ (s : State) (c : Byte), (∀ e ∈ keymap, e.1 ≠ c) → exec (.resolve c) s = .next { s.begin with
    port := { s.begin.port with result := some (.resolved .unrecognized) } })

/-- For every table of 16 distinct command bytes mapped to named keys, exactly 240 of the 256 byte values resolve to
UNRECOGNIZED. (R65, R131.) -/
def Obligations.UnlistedCommandsNumber240 : Prop :=
  ∀ m : KeyMap, KeyMap.wf m = true →
  ((List.range 256).filter (fun n => decide (resolveWith m (BitVec.ofNat 8 n) = .unrecognized))).length = 240

/-- The row PUBLISH(k), for any of the 21 keys and in every state: MB_KEY is the code of k, MB_PRESSED is 1,
KeyPublished(k) is emitted, and nothing else changes; a full slot is overwritten. (R133.) -/
def Obligations.PublishOverwritesMailbox : Prop :=
  ∀ (s : State) (k : LogicalKey), exec (.publish k) s = .next { s.begin with
  mailbox := { pressed := true, key := codeOfKey k }
  port := { s.begin.port with events := [.keyPublished k] } }

/-- MBOX_TAKE, in every state in which a pending key is a logical key (R23 item 6), returns MB_PRESSED and MB_KEY as
they were, clears MB_PRESSED, leaves MB_KEY, and changes and emits nothing else. For a pending code that names no
key see ReservedPendingCodesReadAsUnrecognized. (R135.) -/
def Obligations.TakeReturnsAndEmptiesMailbox : Prop :=
  ∀ s : State, MailboxInv s.mailbox → exec .mboxTake s = .next { s.begin with
  mailbox := { pressed := false, key := s.mailbox.key }
  port := { s.begin.port with result := some (.taken s.mailbox.pressed s.mailbox.key) } }

/-- Publishing k1 and then k2 with no take between and then taking twice returns k2 and then an empty mailbox: k1 is
never seen and k2 is seen once. (R50, R134.) -/
def Obligations.TakeSeesLastPublishedKeyOnce : Prop :=
  ∀ (s : State) (k1 k2 : LogicalKey), ∃ a b c d, exec (.publish k1) s = .next a ∧ exec (.publish k2) a = .next b ∧
  exec .mboxTake b = .next c ∧ c.port.result = some (.taken true (codeOfKey k2)) ∧
  exec .mboxTake c = .next d ∧ d.port.result = some (.taken false (codeOfKey k2))

/-- In InitialScreen with a key pending, POLL clears MB_PRESSED; on PLAY WS becomes 1 with the payload 0; on each of the
other 20 keys nothing else changes; no event either way. With no key pending nothing changes. (R153, R154.) -/
def Obligations.PollInInitialScreen : Prop :=
  ∀ (s : State) (now : Time4), s.view = .live .initialScreen →
  (s.mailbox.pressed = true → s.mailbox.key = codeOfKey .play → exec (.poll now) s = .next { s.begin with
    mailbox := { pressed := false, key := s.mailbox.key }
    workflow := { WorkflowRegs.initial with ws := 1 } }) ∧
  (∀ k, s.mailbox.pressed = true → s.mailbox.key = codeOfKey k → k ≠ .play →
    exec (.poll now) s = .next { s.begin with mailbox := { pressed := false, key := s.mailbox.key } }) ∧
  (s.mailbox.pressed = false → exec (.poll now) s = .next s.begin)

/-- In SelectCups with a key pending, POLL clears MB_PRESSED; on DIGIT_0 the registers become the image of
InitialScreen; on DIGIT_n, n = 1..5, WS becomes 2 and CUPS n; on the 15 other keys the state stays and ReportInvalid
is emitted. With no key pending nothing changes and nothing is emitted. (R155, R156, R157.) -/
def Obligations.PollInSelectCups : Prop :=
  ∀ (s : State) (now : Time4), s.view = .live .selectCups →
  (s.mailbox.pressed = true → s.mailbox.key = codeOfKey .digit0 → exec (.poll now) s = .next { s.begin with
    mailbox := { pressed := false, key := s.mailbox.key }
    workflow := WorkflowRegs.initial }) ∧
  (∀ (k : LogicalKey) (n : BitVec 3),
    (k, n) ∈ [(LogicalKey.digit1, (1 : BitVec 3)), (.digit2, 2), (.digit3, 3), (.digit4, 4), (.digit5, 5)] →
    s.mailbox.pressed = true → s.mailbox.key = codeOfKey k → exec (.poll now) s = .next { s.begin with
      mailbox := { pressed := false, key := s.mailbox.key }
      workflow := { WorkflowRegs.initial with ws := 2, cups := n } }) ∧
  (∀ k, k ∉ [LogicalKey.digit0, .digit1, .digit2, .digit3, .digit4, .digit5] →
    s.mailbox.pressed = true → s.mailbox.key = codeOfKey k → exec (.poll now) s = .next { s.begin with
      mailbox := { pressed := false, key := s.mailbox.key }
      port := { s.begin.port with events := [.reportInvalid] } }) ∧
  (s.mailbox.pressed = false → exec (.poll now) s = .next s.begin)

/-- In ScheduleOrNow{c} with a key pending, POLL clears MB_PRESSED; on DIGIT_1 WS becomes 3, MODE 0, CUPS stays c and
StartPreparation(c, Now) is emitted; on DIGIT_2 WS becomes 4, CUPS stays c and StartScheduleConfig is emitted; on
the 19 other keys nothing else changes. With no key pending nothing changes. (R158, R159, R160.) -/
def Obligations.PollInScheduleOrNow : Prop :=
  ∀ (s : State) (now : Time4) (c : BitVec 3), s.view = .live (.scheduleOrNow c) →
  (s.mailbox.pressed = true → s.mailbox.key = codeOfKey .digit1 → exec (.poll now) s = .next { s.begin with
    mailbox := { pressed := false, key := s.mailbox.key }
    workflow := { WorkflowRegs.initial with ws := 3, cups := c, mode := 0 }
    port := { s.begin.port with events := [.startPreparation c .now] } }) ∧
  (s.mailbox.pressed = true → s.mailbox.key = codeOfKey .digit2 → exec (.poll now) s = .next { s.begin with
    mailbox := { pressed := false, key := s.mailbox.key }
    workflow := { WorkflowRegs.initial with ws := 4, cups := c }
    port := { s.begin.port with events := [.startScheduleConfig] } }) ∧
  (∀ k, k ≠ .digit1 → k ≠ .digit2 → s.mailbox.pressed = true → s.mailbox.key = codeOfKey k →
    exec (.poll now) s = .next { s.begin with mailbox := { pressed := false, key := s.mailbox.key } }) ∧
  (s.mailbox.pressed = false → exec (.poll now) s = .next s.begin)

/-- In Brewing and in Scheduling POLL takes no key, ignores now, changes no register and emits nothing. (R162, R163.) -/
def Obligations.PollInBrewingAndScheduling : Prop :=
  ∀ (s : State) (now : Time4) (c : BitVec 3) (m : Mode),
  (s.view = .live (.brewing c m) ∨ s.view = .live (.scheduling c)) → exec (.poll now) s = .next s.begin

/-- In Waiting{c, tgt}, whatever the mailbox holds, POLL(now) with now equal to tgt in all four fields sets WS 3, MODE
1, TGT_* and TGT_VALID 0, keeps CUPS and emits StartPreparation(c, Scheduled); with any other now nothing changes.
The mailbox is neither read nor cleared. (R165, R166.) -/
def Obligations.PollInWaiting : Prop :=
  ∀ (s : State) (now tgt : Time4) (c : BitVec 3), s.view = .live (.waiting c tgt) →
  ((now.day = tgt.day ∧ now.month = tgt.month ∧ now.hour = tgt.hour ∧ now.minute = tgt.minute) →
    exec (.poll now) s = .next { s.begin with
      workflow :=
        { ws := 3, cups := c, mode := 1, tgtDay := 0, tgtMonth := 0, tgtHour := 0, tgtMin := 0, tgtValid := false }
      port := { s.begin.port with events := [.startPreparation c .scheduled] } }) ∧
  (¬ (now.day = tgt.day ∧ now.month = tgt.month ∧ now.hour = tgt.hour ∧ now.minute = tgt.minute) →
    exec (.poll now) s = .next s.begin)

/-- With WS 6 or 7, whatever the other registers hold, POLL writes 0 to every workflow register, takes no key and emits
nothing; PREP_DONE and SCHED_CFG change nothing. (R168.) -/
def Obligations.PollDefensiveReset : Prop :=
  ∀ (s : State) (now time : Time4) (valid : Bool), (s.workflow.ws = 6 ∨ s.workflow.ws = 7) →
  exec (.poll now) s = .next { s.begin with
    workflow :=
        { ws := 0, cups := 0, mode := 0, tgtDay := 0, tgtMonth := 0, tgtHour := 0, tgtMin := 0, tgtValid := false } } ∧
  exec .prepDone s = .next s.begin ∧ exec (.schedCfg time valid) s = .next s.begin

/-- In every state that is not Waiting, POLL does the same whatever its operand now is. (R151, R161.) -/
def Obligations.PollIgnoresClockOutsideWaiting : Prop :=
  ∀ (s : State) (now now' : Time4), (∀ c tgt, s.view ≠ .live (.waiting c tgt)) →
  exec (.poll now) s = exec (.poll now') s

/-- In the three key-driven states with key k pending, POLL does what the KEY row of k does on the state with MB_PRESSED
cleared. The KEY rows applied on their own are the model's (log 8). (R152, R178.) -/
def Obligations.PollIsTakeThenKeyRow : Prop :=
  ∀ (s : State) (now : Time4) (w : WorkflowState) (k : LogicalKey), s.view = .live w →
  (w = .initialScreen ∨ w = .selectCups ∨ ∃ c, w = .scheduleOrNow c) →
  s.mailbox.pressed = true → s.mailbox.key = codeOfKey k →
  exec (.poll now) s = exec (Instr.ofKey k) { s with mailbox := { pressed := false, key := s.mailbox.key } }

/-- In Brewing PREP_DONE writes WS 0, CUPS 0, MODE 0 and MB_PRESSED 0 and emits nothing; in every other workflow state,
and with WS 6 or 7, it changes nothing. (R169, R170.) -/
def Obligations.PrepDoneReturnsToInitialScreen : Prop :=
  (∀ (s : State) (c : BitVec 3) (m : Mode), s.view = .live (.brewing c m) → exec .prepDone s = .next { s.begin with
    mailbox := { pressed := false, key := s.mailbox.key }
    workflow := { s.workflow with ws := 0, cups := 0, mode := 0 } }) ∧
  (∀ (s : State) (w : WorkflowState), s.view = .live w → (∀ c m, w ≠ .brewing c m) →
    exec .prepDone s = .next s.begin) ∧
  (∀ s : State, s.view = .notAState → exec .prepDone s = .next s.begin)

/-- In Scheduling{c}, with valid the four fields are stored as given, TGT_VALID becomes 1, WS 5 and CUPS stays; without
valid WS and CUPS become 0 and the time is not stored; MB_PRESSED is cleared both times and nothing is emitted. In
every other workflow state, and with WS 6 or 7, nothing changes. (R172, R173, R174.) -/
def Obligations.SchedCfgEntersWaitingOrReturns : Prop :=
  (∀ (s : State) (c : BitVec 3) (time : Time4), s.view = .live (.scheduling c) →
    exec (.schedCfg time true) s = .next { s.begin with
      mailbox := { pressed := false, key := s.mailbox.key }
      workflow :=
        { ws := 5, cups := c, mode := 0, tgtDay := time.day, tgtMonth := time.month, tgtHour := time.hour, tgtMin := time.minute, tgtValid := true } } ∧
    exec (.schedCfg time false) s = .next { s.begin with
      mailbox := { pressed := false, key := s.mailbox.key }
      workflow := { s.workflow with ws := 0, cups := 0 } }) ∧
  (∀ (s : State) (w : WorkflowState) (time : Time4) (valid : Bool), s.view = .live w → (∀ c, w ≠ .scheduling c) →
    exec (.schedCfg time valid) s = .next s.begin) ∧
  (∀ (s : State) (time : Time4) (valid : Bool), s.view = .notAState →
    exec (.schedCfg time valid) s = .next s.begin)

/-- NOP, in every state, leaves every register as it is and emits nothing (the boundary shows no event, label or
result). (R175.) -/
def Obligations.NopChangesNothing : Prop :=
  ∀ s : State, exec .nop s = .next { s with port := { s.port with events := [], dropped := none, result := none } }

/-- With WS in 0..5 and an image that is no workflow state's, POLL, PREP_DONE, SCHED_CFG and the key rows are refused,
as R23 and R74 say a model should (log 13); with WS = 2 and CUPS = 0, 6 or 7 the image is such a one. (R23, R74.) -/
def Obligations.IllegalWorkflowImagesRefused : Prop :=
  (∀ (s : State) (now : Time4) (valid : Bool) (k : LogicalKey), s.view = .outsideInvariant →
    exec (.poll now) s = .refused .workflowImageOutsideInvariant ∧
    exec .prepDone s = .refused .workflowImageOutsideInvariant ∧
    exec (.schedCfg now valid) s = .refused .workflowImageOutsideInvariant ∧
    exec (Instr.ofKey k) s = .refused .workflowImageOutsideInvariant) ∧
  (∀ s : State, s.workflow.ws = 2 → (s.workflow.cups = 0 ∨ s.workflow.cups = 6 ∨ s.workflow.cups = 7) →
    s.view = .outsideInvariant)

/-- For each of the 21 KEY rows (keyDigit0..keyDigit9, keyPower, keyMenu, keyTest, keyPlus, keyMinus, keyBack,
keyPrevious, keyPlay, keyNext, keyClear, keyUnrecognized): the registers and event of its rule in InitialScreen,
SelectCups and ScheduleOrNow, and no change in Brewing, Scheduling, Waiting and with WS 6 or 7. The mailbox stays:
the take is POLL's (log 8, log 11). (R153, R154, R155, R156, R157, R158, R159, R160, R164, R178.) -/
def Obligations.KeyRowsFollowDispatchTable : Prop :=
  ∀ (s : State) (k : LogicalKey),
  (s.view = .live .initialScreen → exec (Instr.ofKey k) s =
    .next { s.begin with workflow := { WorkflowRegs.initial with ws := if k = .play then 1 else 0 } }) ∧
  (s.view = .live .selectCups → k = .digit0 → exec (Instr.ofKey k) s =
    .next { s.begin with workflow := WorkflowRegs.initial }) ∧
  (∀ n : BitVec 3, s.view = .live .selectCups →
    (k, n) ∈ [(LogicalKey.digit1, (1 : BitVec 3)), (.digit2, 2), (.digit3, 3), (.digit4, 4), (.digit5, 5)] →
    exec (Instr.ofKey k) s = .next { s.begin with workflow := { WorkflowRegs.initial with ws := 2, cups := n } }) ∧
  (s.view = .live .selectCups → k ∉ [LogicalKey.digit0, .digit1, .digit2, .digit3, .digit4, .digit5] →
    exec (Instr.ofKey k) s = .next { s.begin with port := { s.begin.port with events := [.reportInvalid] } }) ∧
  (∀ c : BitVec 3, s.view = .live (.scheduleOrNow c) →
    (k = .digit1 → exec (Instr.ofKey k) s = .next { s.begin with
      workflow := { WorkflowRegs.initial with ws := 3, cups := c }
      port := { s.begin.port with events := [.startPreparation c .now] } }) ∧
    (k = .digit2 → exec (Instr.ofKey k) s = .next { s.begin with
      workflow := { WorkflowRegs.initial with ws := 4, cups := c }
      port := { s.begin.port with events := [.startScheduleConfig] } }) ∧
    (k ≠ .digit1 → k ≠ .digit2 → exec (Instr.ofKey k) s = .next s.begin)) ∧
  ((s.view = .notAState ∨ ∃ c : BitVec 3, s.view = .live (.scheduling c) ∨
      (∃ m, s.view = .live (.brewing c m)) ∨ ∃ tgt, s.view = .live (.waiting c tgt)) →
    exec (Instr.ofKey k) s = .next s.begin)

/-- Whenever an operation of the loop context answers a next state, the EdgeBuffer, EB_CNT, LAST_* and MB_KEY are as
before and MB_PRESSED is not set; whenever EDGE does, the workflow registers are as before and MB_PRESSED is not
cleared. (R10, R46, R213.) -/
def Obligations.ContextsWriteOnlyTheirGroups : Prop :=
  ∀ (i : Instr) (s t : State), exec i s = .next t →
  (i.context = some .loop → t.capture = s.capture ∧ t.decoder = s.decoder ∧ t.mailbox.key = s.mailbox.key ∧
    (t.mailbox.pressed = true → s.mailbox.pressed = true)) ∧
  (i.context = some .interrupt → t.workflow = s.workflow ∧
    (s.mailbox.pressed = true → t.mailbox.pressed = true))

/-- Whatever instruction other than RESET answers a next state, LAST_VALID is still 1 after it if it was 1 before. (R13,
R19.) -/
def Obligations.LastValidClearedOnlyByReset : Prop :=
  ∀ (i : Instr) (s t : State), i ≠ .reset → exec i s = .next t → s.decoder.valid = true →
  t.decoder.valid = true

/-- In Waiting{c, tgt}, whatever instruction other than RESET answers a next state, either the workflow registers are
unchanged or it was POLL of exactly tgt, the state is Brewing{c, Scheduled} and StartPreparation(c, Scheduled) is
its one event: no key cancels a schedule. (R164, R165, R166, R244.) -/
def Obligations.WaitingLeftOnlyByMatchingTick : Prop :=
  ∀ (i : Instr) (s t : State) (c : BitVec 3) (tgt : Time4), s.view = .live (.waiting c tgt) → i ≠ .reset →
  exec i s = .next t →
  t.workflow = s.workflow ∨
    (i = .poll tgt ∧ t.view = .live (.brewing c .scheduled) ∧ t.port.events = [.startPreparation c .scheduled])

/-- In Brewing{c, m}, whatever instruction other than RESET answers a next state, either the workflow registers are
unchanged or it was PREP_DONE and the state is InitialScreen: no key is processed until the preparation is complete.
(R162, R169.) -/
def Obligations.BrewingLeftOnlyByPrepDone : Prop :=
  ∀ (i : Instr) (s t : State) (c : BitVec 3) (m : Mode), s.view = .live (.brewing c m) → i ≠ .reset →
  exec i s = .next t → t.workflow = s.workflow ∨ (i = .prepDone ∧ t.view = .live .initialScreen)

/-- VALIDATE changes no register, emits nothing and returns one bit: 1 iff the target is later in the first of month,
day, hour, minute in which the two differ, iff month*2^24 + day*2^16 + hour*2^8 + minute is greater. No range check;
a target in an earlier month is never later (no year). (R190, R192, R193.) -/
def Obligations.ValidateIsStrictlyLater : Prop :=
  ∀ (s : State) (t c : Time4), ∃ b, exec (.validate t c) s = .next { s.begin with
    port := { s.begin.port with result := some (.later b) } } ∧
  (b = true ↔ c.month.toNat < t.month.toNat ∨ (t.month = c.month ∧ (c.day.toNat < t.day.toNat ∨
    (t.day = c.day ∧ (c.hour.toNat < t.hour.toNat ∨ (t.hour = c.hour ∧ c.minute.toNat < t.minute.toNat)))))) ∧
  (b = true ↔ c.month.toNat * 2 ^ 24 + c.day.toNat * 2 ^ 16 + c.hour.toNat * 2 ^ 8 + c.minute.toNat <
    t.month.toNat * 2 ^ 24 + t.day.toNat * 2 ^ 16 + t.hour.toNat * 2 ^ 8 + t.minute.toNat) ∧
  (t.month.toNat < c.month.toNat → b = false)

/-- REACHED changes no register, emits nothing and returns one bit: 1 iff day, month, hour and minute are all equal.
(R191, R194.) -/
def Obligations.ReachedIsExactEquality : Prop :=
  ∀ (s : State) (t c : Time4), ∃ b, exec (.reached t c) s = .next { s.begin with
    port := { s.begin.port with result := some (.equal b) } } ∧ (b = true ↔ t = c)

/-- RESET answers a next state from every state: EB_CNT, LAST_VALID, MB_PRESSED and every workflow register are 0, no
cell holds a value, and no event is emitted. Of LAST_ADDR, LAST_CMD and MB_KEY, which become unspecified, nothing is
said (log 3); that an unwritten cell reads as none is how the model holds no value (log 2). (R230, R25.) -/
def Obligations.ResetOperationClearsEverySpecifiedRegister : Prop :=
  ∀ s : State, ∃ t, exec .reset s = .next t ∧ t.capture.ebCnt = 0 ∧ (∀ i, t.capture.cells.read i = none) ∧
  t.decoder.valid = false ∧ t.mailbox.pressed = false ∧
  t.workflow =
    { ws := 0, cups := 0, mode := 0, tgtDay := 0, tgtMonth := 0, tgtHour := 0, tgtMin := 0, tgtValid := false } ∧
  t.port.events = []

/-- In State.reset EB_CNT, LAST_VALID, MB_PRESSED and every workflow register are 0, the workflow state is InitialScreen
and no cell holds a value; nothing is said of the registers R25 leaves unspecified (log 1). That every cell reads as
none is the model's choice of how an unspecified cell holds no value (log 2), where R25 admits an option type or a
draw. (R25.) -/
def Obligations.ResetStateIsAsSpecified : Prop :=
  State.reset.capture.ebCnt = 0 ∧ (∀ i, State.reset.capture.cells.read i = none) ∧
  State.reset.decoder.valid = false ∧ State.reset.mailbox.pressed = false ∧
  State.reset.view = .live .initialScreen ∧ State.reset.workflow.ws = 0 ∧ State.reset.workflow.cups = 0 ∧
  State.reset.workflow.mode = 0 ∧ State.reset.workflow.tgtDay = 0 ∧ State.reset.workflow.tgtMonth = 0 ∧
  State.reset.workflow.tgtHour = 0 ∧ State.reset.workflow.tgtMin = 0 ∧ State.reset.workflow.tgtValid = false

/-- When the next presentation is one word and it decodes to i, step is exec i on the state with that word taken from
the input. The input queue is the model's (log 5). (R6, R45.) -/
def Obligations.StepRunsDecodedOperation : Prop :=
  ∀ (s : State) (w : CodeWord) (rest : List Presentation) (i : Instr), s.port.input = .one w :: rest →
  decode w = .instr i → step s = exec i { s with port := { s.port with input := rest } }

/-- With nothing presented a step changes no register and emits nothing; a presented word that decodes to no instruction
is refused by name. The idle step and the input queue are the model's (log 5). (R8, R74.) -/
def Obligations.StepIdleOrRefusedWithoutOperation : Prop :=
  (∀ s : State, s.port.input = [] → step s = .next s.begin) ∧
  (∀ (s : State) (w : CodeWord) (rest : List Presentation) (r : Reject), s.port.input = .one w :: rest →
    decode w = .rejected r → step s = .refused (.spellsNoOperation r))

/-- When two words that decode to i and j are presented together, the first step is exec of one of them and the step
after it is exec of the other: no other outcome exists. Which comes first is a free value (log 6). (R50, R208.) -/
def Obligations.SimultaneousOperationsTakeSomeOrder : Prop :=
  ∀ (s : State) (e l : CodeWord) (rest : List Presentation) (i j : Instr), s.port.input = .both e l :: rest →
  decode e = .instr i → decode l = .instr j →
  (step s = exec i { s with port := { s.port with input := .one l :: rest },
                            work := { s.work with free := s.work.free + 1 } } ∧
    ∀ u, step s = .next u → step u = exec j { u with port := { u.port with input := rest } }) ∨
  (step s = exec j { s with port := { s.port with input := .one e :: rest },
                            work := { s.work with free := s.work.free + 1 } } ∧
    ∀ u, step s = .next u → step u = exec i { u with port := { u.port with input := rest } })

/-- If the state meets items 1 to 3 and 5 of R23 (count in range, cells below the count written, stored gaps short,
first gap no repeat, memory canonical, workflow registers the image of a workflow state) and a pending key is a
logical key, and step answers a next state, that state meets them too: for every presented word, the sub-operation,
symbol and key rows included. (R23.) -/
def Obligations.StepKeepsInvariant : Prop :=
  ∀ s t : State, RowInv s → step s = .next t → RowInv t

/-- State.reset meets the invariant every row keeps and the full R23 that the operations keep. (R23, R25.) -/
def Obligations.ResetMeetsInvariants : Prop :=
  RowInv State.reset ∧ BlockInv State.reset

/-- If the state meets R23 items 1 to 3, 5 and 6 in full and one of the nine operations answers a next state, that state
meets them too. (R23.) -/
def Obligations.OperationsKeepBlockInvariant : Prop :=
  ∀ (i : Instr) (s t : State), i.format = .op → BlockInv s → exec i s = .next t → BlockInv t

/-- Every operation is total in every state that meets the invariant: whatever the instruction and its operands, exec
answers a next state; no fault and no refusal is reachable. (R7, R23.) -/
def Obligations.EveryInstructionCompletesInGoodStates : Prop :=
  ∀ (i : Instr) (s : State), RowInv s → ∃ t, exec i s = .next t

/-- For every word and every start time, wrap included, the nominal frame has 34 edges and its 32 data gaps assemble the
word. The header gap 13500 of the pseudo-operations is general knowledge by the spec's own words (log 23) and is not
read. (R70, R77, R111, R114.) -/
def Obligations.NominalFrameSpellsItsWord : Prop :=
  ∀ (w : BitVec 32) (t0 : Timestamp), (frameEdges w t0).length = 34 ∧
  assembleWord 0 (gapsOf (frameEdges w t0).tail) = some w

/-- For every address and command and every start time, the last edge of FRAME addr cmd @t0 is at t0 + 67500 modulo
2^32. Of these 13500 are the header gap of R70 and R77, which is PRESUMED: the spec marks it as general knowledge
(log 23). (R64, R77.) -/
def Obligations.LegalFrameLasts67500 : Prop :=
  ∀ (addr cmd : Byte) (t0 : Timestamp),
  (frameEdges (~~~ cmd ++ cmd ++ ~~~ addr ++ addr) t0)[33]? = some (t0 + 67500)

/-- With a key pending whose code names no key, MBOX_TAKE returns the code of UNRECOGNIZED, clears MB_PRESSED and leaves
MB_KEY, and POLL in a key-driven state does what the row KEY_UNRECOGNIZED does with MB_PRESSED cleared. U14 says so
of an image that is not refused, where R74 would have a model refuse it: the model's choice (log 14).
(93_implementation_defined.md U14, R74.) -/
def Obligations.ReservedPendingCodesReadAsUnrecognized : Prop :=
  ∀ (s : State) (now : Time4), s.mailbox.pressed = true → 20 ≤ s.mailbox.key.toNat → s.mailbox.key.toNat ≤ 30 →
  exec .mboxTake s = .next { s.begin with
    mailbox := { pressed := false, key := s.mailbox.key }
    port := { s.begin.port with result := some (.taken true 31) } } ∧
  ∀ w, s.view = .live w → (w = .initialScreen ∨ w = .selectCups ∨ ∃ c, w = .scheduleOrNow c) →
    exec (.poll now) s = exec .keyUnrecognized { s with mailbox := { pressed := false, key := s.mailbox.key } }

/-- The code of Normal is 0 and of Repeat 1; the code of Now is 0 and of Scheduled 1; each code stands for the one kind
or mode that has it; and the register MODE of Brewing{c, m} holds the code of m. (R68.) -/
def Obligations.KindAndModeCodesAsTabulated : Prop :=
  bitOfKind .normal = 0 ∧ bitOfKind .repeated = 1 ∧ bitOfMode .now = 0 ∧ bitOfMode .scheduled = 1 ∧
  (∀ k b, bitOfKind k = b ↔ kindOfBit b = k) ∧ (∀ m b, bitOfMode m = b ↔ modeOfBit b = m) ∧
  ∀ c m, (imageOf (.brewing c m)).mode = bitOfMode m
end

