-- ==== Sys2Proof/Laws/State.lean ====
section
/-! SUPPORT. One lemma per group of State per named update, true by rfl, so that no proof unfolds a record update. -/

namespace Sys2Proof.Machine

@[simp] theorem State.begin_capture (s : State) : (s.begin).capture = s.capture := rfl
@[simp] theorem State.begin_decoder (s : State) : (s.begin).decoder = s.decoder := rfl
@[simp] theorem State.begin_mailbox (s : State) : (s.begin).mailbox = s.mailbox := rfl
@[simp] theorem State.begin_workflow (s : State) : (s.begin).workflow = s.workflow := rfl
@[simp] theorem State.begin_port (s : State) :
    (s.begin).port = { s.port with events := [], dropped := none, result := none } := rfl
@[simp] theorem State.begin_work (s : State) : (s.begin).work = s.work := rfl

@[simp] theorem State.emit_capture (e : Event) (s : State) : (s.emit e).capture = s.capture := rfl
@[simp] theorem State.emit_decoder (e : Event) (s : State) : (s.emit e).decoder = s.decoder := rfl
@[simp] theorem State.emit_mailbox (e : Event) (s : State) : (s.emit e).mailbox = s.mailbox := rfl
@[simp] theorem State.emit_workflow (e : Event) (s : State) : (s.emit e).workflow = s.workflow := rfl
@[simp] theorem State.emit_port (e : Event) (s : State) : (s.emit e).port = { s.port with events := s.port.events ++ [e] } := rfl
@[simp] theorem State.emit_work (e : Event) (s : State) : (s.emit e).work = s.work := rfl

@[simp] theorem State.dropFrame_capture (l : ErrorClass) (s : State) : (s.dropFrame l).capture = s.capture := rfl
@[simp] theorem State.dropFrame_decoder (l : ErrorClass) (s : State) : (s.dropFrame l).decoder = s.decoder := rfl
@[simp] theorem State.dropFrame_mailbox (l : ErrorClass) (s : State) : (s.dropFrame l).mailbox = s.mailbox := rfl
@[simp] theorem State.dropFrame_workflow (l : ErrorClass) (s : State) : (s.dropFrame l).workflow = s.workflow := rfl
@[simp] theorem State.dropFrame_port (l : ErrorClass) (s : State) : (s.dropFrame l).port = { s.port with dropped := some l } := rfl
@[simp] theorem State.dropFrame_work (l : ErrorClass) (s : State) : (s.dropFrame l).work = s.work := rfl

@[simp] theorem State.answer_capture (r : Result) (s : State) : (s.answer r).capture = s.capture := rfl
@[simp] theorem State.answer_decoder (r : Result) (s : State) : (s.answer r).decoder = s.decoder := rfl
@[simp] theorem State.answer_mailbox (r : Result) (s : State) : (s.answer r).mailbox = s.mailbox := rfl
@[simp] theorem State.answer_workflow (r : Result) (s : State) : (s.answer r).workflow = s.workflow := rfl
@[simp] theorem State.answer_port (r : Result) (s : State) : (s.answer r).port = { s.port with result := some r } := rfl
@[simp] theorem State.answer_work (r : Result) (s : State) : (s.answer r).work = s.work := rfl

@[simp] theorem State.setAcc_capture (w : BitVec 32) (s : State) : (s.setAcc w).capture = s.capture := rfl
@[simp] theorem State.setAcc_decoder (w : BitVec 32) (s : State) : (s.setAcc w).decoder = s.decoder := rfl
@[simp] theorem State.setAcc_mailbox (w : BitVec 32) (s : State) : (s.setAcc w).mailbox = s.mailbox := rfl
@[simp] theorem State.setAcc_workflow (w : BitVec 32) (s : State) : (s.setAcc w).workflow = s.workflow := rfl
@[simp] theorem State.setAcc_port (w : BitVec 32) (s : State) : (s.setAcc w).port = s.port := rfl
@[simp] theorem State.setAcc_work (w : BitVec 32) (s : State) : (s.setAcc w).work = { s.work with acc := w } := rfl

@[simp] theorem State.setCount_capture (n : BitVec 6) (s : State) : (s.setCount n).capture = { s.capture with ebCnt := n } := rfl
@[simp] theorem State.setCount_decoder (n : BitVec 6) (s : State) : (s.setCount n).decoder = s.decoder := rfl
@[simp] theorem State.setCount_mailbox (n : BitVec 6) (s : State) : (s.setCount n).mailbox = s.mailbox := rfl
@[simp] theorem State.setCount_workflow (n : BitVec 6) (s : State) : (s.setCount n).workflow = s.workflow := rfl
@[simp] theorem State.setCount_port (n : BitVec 6) (s : State) : (s.setCount n).port = s.port := rfl
@[simp] theorem State.setCount_work (n : BitVec 6) (s : State) : (s.setCount n).work = s.work := rfl

@[simp] theorem State.setWorkflow_capture (r : WorkflowRegs) (s : State) : (s.setWorkflow r).capture = s.capture := rfl
@[simp] theorem State.setWorkflow_decoder (r : WorkflowRegs) (s : State) : (s.setWorkflow r).decoder = s.decoder := rfl
@[simp] theorem State.setWorkflow_mailbox (r : WorkflowRegs) (s : State) : (s.setWorkflow r).mailbox = s.mailbox := rfl
@[simp] theorem State.setWorkflow_workflow (r : WorkflowRegs) (s : State) : (s.setWorkflow r).workflow = r := rfl
@[simp] theorem State.setWorkflow_port (r : WorkflowRegs) (s : State) : (s.setWorkflow r).port = s.port := rfl
@[simp] theorem State.setWorkflow_work (r : WorkflowRegs) (s : State) : (s.setWorkflow r).work = s.work := rfl

@[simp] theorem State.recordDecode_capture (a c : Byte) (s : State) : (s.recordDecode a c).capture = s.capture := rfl
@[simp] theorem State.recordDecode_decoder (a c : Byte) (s : State) : (s.recordDecode a c).decoder = { valid := true, addr := a, cmd := c } := rfl
@[simp] theorem State.recordDecode_mailbox (a c : Byte) (s : State) : (s.recordDecode a c).mailbox = s.mailbox := rfl
@[simp] theorem State.recordDecode_workflow (a c : Byte) (s : State) : (s.recordDecode a c).workflow = s.workflow := rfl
@[simp] theorem State.recordDecode_port (a c : Byte) (s : State) : (s.recordDecode a c).port = s.port := rfl
@[simp] theorem State.recordDecode_work (a c : Byte) (s : State) : (s.recordDecode a c).work = s.work := rfl

@[simp] theorem State.setMailbox_capture (k : BitVec 5) (s : State) : (s.setMailbox k).capture = s.capture := rfl
@[simp] theorem State.setMailbox_decoder (k : BitVec 5) (s : State) : (s.setMailbox k).decoder = s.decoder := rfl
@[simp] theorem State.setMailbox_mailbox (k : BitVec 5) (s : State) : (s.setMailbox k).mailbox = { pressed := true, key := k } := rfl
@[simp] theorem State.setMailbox_workflow (k : BitVec 5) (s : State) : (s.setMailbox k).workflow = s.workflow := rfl
@[simp] theorem State.setMailbox_port (k : BitVec 5) (s : State) : (s.setMailbox k).port = s.port := rfl
@[simp] theorem State.setMailbox_work (k : BitVec 5) (s : State) : (s.setMailbox k).work = s.work := rfl

@[simp] theorem State.clearPressed_capture (s : State) : (s.clearPressed).capture = s.capture := rfl
@[simp] theorem State.clearPressed_decoder (s : State) : (s.clearPressed).decoder = s.decoder := rfl
@[simp] theorem State.clearPressed_mailbox (s : State) : (s.clearPressed).mailbox = { s.mailbox with pressed := false } := rfl
@[simp] theorem State.clearPressed_workflow (s : State) : (s.clearPressed).workflow = s.workflow := rfl
@[simp] theorem State.clearPressed_port (s : State) : (s.clearPressed).port = s.port := rfl
@[simp] theorem State.clearPressed_work (s : State) : (s.clearPressed).work = s.work := rfl

@[simp] theorem State.publishKey_capture (k : LogicalKey) (s : State) : (s.publishKey k).capture = s.capture := rfl
@[simp] theorem State.publishKey_decoder (k : LogicalKey) (s : State) : (s.publishKey k).decoder = s.decoder := rfl
@[simp] theorem State.publishKey_mailbox (k : LogicalKey) (s : State) : (s.publishKey k).mailbox = { pressed := true, key := codeOfKey k } := rfl
@[simp] theorem State.publishKey_workflow (k : LogicalKey) (s : State) : (s.publishKey k).workflow = s.workflow := rfl
@[simp] theorem State.publishKey_port (k : LogicalKey) (s : State) :
    (s.publishKey k).port = { s.port with events := s.port.events ++ [.keyPublished k] } := rfl
@[simp] theorem State.publishKey_work (k : LogicalKey) (s : State) : (s.publishKey k).work = s.work := rfl

@[simp] theorem State.resetRegisters_capture (s : State) : (s.resetRegisters).capture = { cells := [], ebCnt := 0 } := rfl
@[simp] theorem State.resetRegisters_decoder (s : State) :
    (s.resetRegisters).decoder = { valid := false, addr := Config.freeByte s.work.free, cmd := Config.freeByte (s.work.free + 1) } := rfl
@[simp] theorem State.resetRegisters_mailbox (s : State) :
    (s.resetRegisters).mailbox = { pressed := false, key := Config.freeKeyCode (s.work.free + 2) } := rfl
@[simp] theorem State.resetRegisters_workflow (s : State) : (s.resetRegisters).workflow = WorkflowRegs.initial := rfl
@[simp] theorem State.resetRegisters_port (s : State) : (s.resetRegisters).port = s.port := rfl
@[simp] theorem State.resetRegisters_work (s : State) : (s.resetRegisters).work = { acc := 0, free := s.work.free + 3 } := rfl

@[simp] theorem State.emitEffect_capture (e : Option Event) (s : State) : (s.emitEffect e).capture = s.capture := by
  cases e <;> rfl
@[simp] theorem State.emitEffect_decoder (e : Option Event) (s : State) : (s.emitEffect e).decoder = s.decoder := by
  cases e <;> rfl
@[simp] theorem State.emitEffect_mailbox (e : Option Event) (s : State) : (s.emitEffect e).mailbox = s.mailbox := by
  cases e <;> rfl
@[simp] theorem State.emitEffect_workflow (e : Option Event) (s : State) : (s.emitEffect e).workflow = s.workflow := by
  cases e <;> rfl
@[simp] theorem State.emitEffect_work (e : Option Event) (s : State) : (s.emitEffect e).work = s.work := by
  cases e <;> rfl

@[simp] theorem State.emitEffect_none (s : State) : s.emitEffect none = s := rfl
@[simp] theorem State.emitEffect_some (e : Event) (s : State) : s.emitEffect (some e) = s.emit e := rfl

/-- An effect touches the events of the boundary only. -/
theorem State.emitEffect_port (e : Option Event) (s : State) :
    (s.emitEffect e).port = { s.port with events := s.port.events ++ e.toList } := by
  cases e <;> simp [State.emitEffect]

@[simp] theorem State.present_input (w : CodeWord) (s : State) :
    (s.present w).port.input = .one w :: s.port.input := rfl
@[simp] theorem State.present_capture (w : CodeWord) (s : State) : (s.present w).capture = s.capture := rfl
@[simp] theorem State.present_decoder (w : CodeWord) (s : State) : (s.present w).decoder = s.decoder := rfl
@[simp] theorem State.present_mailbox (w : CodeWord) (s : State) : (s.present w).mailbox = s.mailbox := rfl
@[simp] theorem State.present_workflow (w : CodeWord) (s : State) : (s.present w).workflow = s.workflow := rfl
@[simp] theorem State.present_work (w : CodeWord) (s : State) : (s.present w).work = s.work := rfl
@[simp] theorem State.withFetchWord_capture (s : State) (n w : Nat) : (s.withFetchWord n w).capture = s.capture := rfl
@[simp] theorem State.withFetchWord_decoder (s : State) (n w : Nat) : (s.withFetchWord n w).decoder = s.decoder := rfl
@[simp] theorem State.withFetchWord_mailbox (s : State) (n w : Nat) : (s.withFetchWord n w).mailbox = s.mailbox := rfl
@[simp] theorem State.withFetchWord_workflow (s : State) (n w : Nat) : (s.withFetchWord n w).workflow = s.workflow := rfl
@[simp] theorem State.withFetchWord_work (s : State) (n w : Nat) : (s.withFetchWord n w).work = s.work := rfl

/-- The view depends on the workflow registers only. -/
theorem State.view_eq (s : State) : s.view = viewOf s.workflow := rfl

/-- Clearing an empty mailbox changes nothing. -/
theorem State.clearPressed_of_empty (s : State) (h : s.mailbox.pressed = false) : s.clearPressed = s := by
  obtain ⟨c, d, m, w, p, k⟩ := s
  obtain ⟨b, key⟩ := m
  simp_all [State.clearPressed]

/-- Writing back the registers a state has changes nothing. -/
theorem State.setWorkflow_same (s : State) (r : WorkflowRegs) (h : r = s.workflow) : s.setWorkflow r = s := by
  subst h; rfl

end Sys2Proof.Machine
end

