-- ==== Sys2Proof/Laws/Memory.lean ====
section
/-! SUPPORT. The laws of the EdgeBuffer: read after write, the canonical form is kept, and one lemma per access that says
what it can answer. -/

namespace Sys2Proof.Machine

@[simp] theorem Memory.read_nil (i : Nat) : Memory.read [] i = none := rfl
@[simp] theorem Memory.wf_nil : Memory.wf [] = true := rfl

/-- The cell written reads as the value written. -/
@[simp] theorem Memory.read_write_same (m : Memory) (i : Nat) (t : Timestamp) : (m.write i t).read i = some t := by
  induction m with
  | nil => simp [Memory.write, Memory.read]
  | cons e rest ih =>
    by_cases h1 : i < e.1
    · simp [Memory.write, Memory.read, h1]
    · by_cases h2 : e.1 = i
      · simp [Memory.write, Memory.read, h2]
      · simp [Memory.write, Memory.read, h1, h2, ih]

/-- Every other cell reads as before. -/
theorem Memory.read_write_other (m : Memory) (i j : Nat) (t : Timestamp) (h : j ≠ i) :
    (m.write i t).read j = m.read j := by
  induction m with
  | nil => simp [Memory.write, Memory.read, Ne.symm h]
  | cons e rest ih =>
    by_cases h1 : i < e.1
    · simp [Memory.write, Memory.read, h1, Ne.symm h]
    · by_cases h2 : e.1 = i
      · have : e.1 ≠ j := by omega
        simp [Memory.write, Memory.read, h2, Ne.symm h]
      · simp [Memory.write, Memory.read, h1, h2, ih]

/-- What the canonical form says of a list with a head. -/
theorem Memory.wf_cons (e : Nat × Timestamp) (rest : Memory) :
    Memory.wf (e :: rest) = true ↔ e.1 < 34 ∧ (∀ f ∈ rest, e.1 < f.1) ∧ Memory.wf rest = true := by
  simp [Memory.wf, and_assoc]

/-- The indices after a write are those before it and the one written. -/
theorem Memory.mem_write (m : Memory) (i : Nat) (t : Timestamp) (f : Nat × Timestamp) (h : f ∈ m.write i t) :
    f = (i, t) ∨ f ∈ m := by
  induction m with
  | nil => simpa [Memory.write] using h
  | cons e rest ih =>
    by_cases h1 : i < e.1
    · simpa [Memory.write, h1] using h
    · by_cases h2 : e.1 = i
      · simp [Memory.write, h2] at h
        rcases h with h | h <;> simp [h]
      · simp [Memory.write, h1, h2] at h
        rcases h with h | h
        · simp [h]
        · rcases ih h with h | h <;> simp [h]

/-- A write to a cell that exists keeps the canonical form. -/
theorem Memory.wf_write (m : Memory) (i : Nat) (t : Timestamp) (hi : i < 34) (h : m.wf = true) :
    (m.write i t).wf = true := by
  induction m with
  | nil => simp [Memory.write, Memory.wf_cons, hi]
  | cons e rest ih =>
    rw [Memory.wf_cons] at h
    obtain ⟨he, hlt, hr⟩ := h
    by_cases h1 : i < e.1
    · simp only [Memory.write, h1, if_true]
      rw [Memory.wf_cons, Memory.wf_cons]
      refine ⟨hi, ?_, he, hlt, hr⟩
      intro f hf
      rcases List.mem_cons.mp hf with rfl | hf
      · exact h1
      · exact lt_trans h1 (hlt f hf)
    · by_cases h2 : e.1 = i
      · subst h2
        simp only [Memory.write, lt_irrefl, if_false, if_true]
        rw [Memory.wf_cons]
        exact ⟨hi, hlt, hr⟩
      · simp only [Memory.write, h1, h2, if_false]
        rw [Memory.wf_cons]
        refine ⟨he, ?_, ih hr⟩
        intro f hf
        rcases Memory.mem_write rest i t f hf with rfl | hf
        · show e.1 < i
          omega
        · exact hlt f hf

/-- What a cell read can answer. -/
theorem readCell_ok (m : Memory) (i : Nat) (t : Timestamp) :
    readCell m i = .ok t ↔ i < 34 ∧ m.read i = some t := by
  unfold readCell
  by_cases h : Config.edgeCap ≤ i
  · have : ¬ i < 34 := by simp [Config.edgeCap] at h; omega
    simp [h, this]
  · have : i < 34 := by simp [Config.edgeCap] at h; omega
    cases hr : m.read i <;> simp [h, this]

/-- What a cell write can answer. -/
theorem writeCell_ok (m m' : Memory) (i : Nat) (t : Timestamp) :
    writeCell m i t = .ok m' ↔ i < 34 ∧ m' = m.write i t := by
  unfold writeCell
  by_cases h : Config.edgeCap ≤ i
  · have : ¬ i < 34 := by simp [Config.edgeCap] at h; omega
    simp [h, this]
  · have : i < 34 := by simp [Config.edgeCap] at h; omega
    simp [h, this, eq_comm]

/-- Every cell write keeps the canonical form. -/
theorem writeCell_wf (m m' : Memory) (i : Nat) (t : Timestamp) (hm : m.wf = true) (h : writeCell m i t = .ok m') :
    m'.wf = true := by
  obtain ⟨hi, rfl⟩ := (writeCell_ok m m' i t).mp h
  exact Memory.wf_write m i t hi hm

/-- Reading several cells gives their values in order. -/
theorem readCells_map (m : Memory) (f : Nat → Timestamp) (is : List Nat)
    (h : ∀ i ∈ is, i < 34 ∧ m.read i = some (f i)) : readCells m is = .ok (is.map f) := by
  induction is with
  | nil => rfl
  | cons i rest ih =>
    have h1 := (readCell_ok m i (f i)).mpr (h i (by simp))
    have h2 := ih (fun j hj => h j (by simp [hj]))
    simp [readCells, h1, h2]

/-- Where several cells are read, each of them held a value. -/
theorem readCells_ok (m : Memory) (is : List Nat) (ts : List Timestamp) (h : readCells m is = .ok ts) :
    ∀ i ∈ is, ∃ t, m.read i = some t := by
  induction is generalizing ts with
  | nil => simp
  | cons i rest ih =>
    rw [readCells] at h
    cases h1 : readCell m i with
    | error f => rw [h1] at h; cases h
    | ok t =>
      cases h2 : readCells m rest with
      | error f => rw [h1, h2] at h; cases h
      | ok ts' =>
        intro j hj
        rcases List.mem_cons.mp hj with rfl | hj
        · exact ⟨t, ((readCell_ok m j t).mp h1).2⟩
        · exact ih ts' h2 j hj

/-- The reset memory has the canonical form. -/
theorem reset_memory_wf : State.reset.capture.cells.wf = true := rfl

end Sys2Proof.Machine
end

