-- ==== Sys2Proof/Machine/Ports.lean ====
section
/-! DEFINITION. The signal-level view of the block's interface (10_state.md R24): what a set of input strobes presents,
and what the output ports show. "The normative interface is the set of operations"; this is one way to carry them. -/

namespace Sys2Proof.Machine

/-- The input ports (10_state.md R24): the strobes, and the data inputs sampled with them. -/
structure InputPorts where
  rst : Bool
  irFall : Bool
  ts : Timestamp
  poll : Bool
  now : Time4
  prepDone : Bool
  cfgDone : Bool
  cfg : Time4
  cfgValid : Bool
  mbTake : Bool
  qTarget : BitVec 32
  qCurrent : BitVec 32
  deriving DecidableEq, Repr

/-- The loop-context operations whose strobes are active. -/
def InputPorts.loopOps (p : InputPorts) : List Instr :=
  (if p.poll then [.poll p.now] else []) ++ (if p.prepDone then [.prepDone] else []) ++
    (if p.cfgDone then [.schedCfg p.cfg p.cfgValid] else []) ++ (if p.mbTake then [.mboxTake] else [])

/-- What the strobes present. At most one loop-context strobe is active at a time; `ir_fall` may coincide with it
(10_state.md R24). Two loop-context strobes at once have no rule (70_reset_and_hazards.md R241), nor has `rst` with
another strobe: the answer is then `none` (log 21). -/
def InputPorts.present (p : InputPorts) : Option (List Presentation) :=
  match p.rst, p.irFall, p.loopOps with
  | true, false, [] => some [.one (encode .reset)]
  | true, _, _ => none
  | false, false, [] => some []
  | false, true, [] => some [.one (encode (.edge p.ts))]
  | false, false, [i] => some [.one (encode i)]
  | false, true, [i] => some [.both (encode (.edge p.ts)) (encode i)]
  | false, _, _ :: _ :: _ => none

/-- The output ports (10_state.md R24). -/
structure OutputPorts where
  mbPressed : Bool
  mbKey : BitVec 5
  qLater : Bool
  qEqual : Bool
  ws : BitVec 3
  cups : BitVec 3
  mode : BitVec 1
  tgt : Time4
  tgtValid : Bool
  startPrep : Bool
  startCfg : Bool
  reportInvalid : Bool
  deriving DecidableEq, Repr

/-- An event is a StartPreparation. -/
def Event.isStartPreparation : Event → Bool
  | .startPreparation _ _ => true
  | .frame _ _ _ => false
  | .keyPublished _ => false
  | .startScheduleConfig => false
  | .reportInvalid => false

/-- What the output ports show after an operation: the registers always, the pulses of the operation, MBOX_TAKE's values
from before the clear (else the live mailbox), and the combinational queries of the query operands (10_state.md R24). -/
def State.outputPorts (p : InputPorts) (s : State) : OutputPorts :=
  { mbPressed := match s.port.result with
      | some (.taken pressed _) => pressed
      | _ => s.mailbox.pressed
    mbKey := match s.port.result with
      | some (.taken _ code) => code
      | _ => s.mailbox.key
    qLater := isLater (unpackTime p.qTarget) (unpackTime p.qCurrent)
    qEqual := isReached (unpackTime p.qTarget) (unpackTime p.qCurrent)
    ws := s.workflow.ws
    cups := s.workflow.cups
    mode := s.workflow.mode
    tgt := s.workflow.target
    tgtValid := s.workflow.tgtValid
    startPrep := s.port.events.any Event.isStartPreparation
    startCfg := decide (Event.startScheduleConfig ∈ s.port.events)
    reportInvalid := decide (Event.reportInvalid ∈ s.port.events) }

end Sys2Proof.Machine
end

