-- ==== Sys2Proof/Laws/Ops.lean ====
section
/-! SUPPORT. One lemma per shared operation that says what it can do, for proofs to cite instead of unfolding it. -/

namespace Sys2Proof

/-! ### Words and codes -/

/-- Bit `i` of an operation word. -/
theorem opWord_getLsbD (o : BitVec 8) (a b : BitVec 32) (i : Nat) :
    (opWord o a b).getLsbD i =
      if i < 32 then b.getLsbD i else if i - 32 < 32 then a.getLsbD (i - 32) else o.getLsbD (i - 32 - 32) := by
  have h1 : (opWord o a b).getLsbD i = if i < 32 then b.getLsbD i else (o ++ a).getLsbD (i - 32) :=
    BitVec.getLsbD_append (x := o ++ a) (y := b)
  have h2 : (o ++ a).getLsbD (i - 32) = if i - 32 < 32 then a.getLsbD (i - 32) else o.getLsbD (i - 32 - 32) :=
    BitVec.getLsbD_append (x := o) (y := a)
  rw [h1, h2]

@[simp] theorem opcOf_opWord (o : BitVec 8) (a b : BitVec 32) : opcOf (opWord o a b) = o := by
  apply BitVec.eq_of_getLsbD_eq
  intro i hi
  have h1 : ¬ (64 + i < 32) := by omega
  have h2 : ¬ (64 + i - 32 < 32) := by omega
  have h3 : 64 + i - 32 - 32 = i := by omega
  rw [opcOf, BitVec.getLsbD_extractLsb', opWord_getLsbD, if_neg h1, if_neg h2, h3]
  simp [hi]

@[simp] theorem opAOf_opWord (o : BitVec 8) (a b : BitVec 32) : opAOf (opWord o a b) = a := by
  apply BitVec.eq_of_getLsbD_eq
  intro i hi
  have h1 : ¬ (32 + i < 32) := by omega
  have h2 : 32 + i - 32 = i := by omega
  rw [opAOf, BitVec.getLsbD_extractLsb', opWord_getLsbD, if_neg h1, h2, if_pos hi]
  simp [hi]

@[simp] theorem opBOf_opWord (o : BitVec 8) (a b : BitVec 32) : opBOf (opWord o a b) = b := by
  apply BitVec.eq_of_getLsbD_eq
  intro i hi
  have h1 : 0 + i = i := by omega
  rw [opBOf, BitVec.getLsbD_extractLsb', opWord_getLsbD, h1, if_pos hi]
  simp [hi]

/-- An operation word is its three fields. -/
theorem opWord_of_fields (w : BitVec 72) : opWord (opcOf w) (opAOf w) (opBOf w) = w := by
  apply BitVec.eq_of_getLsbD_eq
  intro i hi
  rw [opWord_getLsbD]
  simp only [opcOf, opAOf, opBOf, BitVec.getLsbD_extractLsb']
  by_cases h1 : i < 32
  · simp [h1]
  · by_cases h2 : i - 32 < 32
    · have h4 : 32 + (i - 32) = i := by omega
      simp [h1, h2, h4]
    · have h4 : i - 32 - 32 < 8 := by omega
      have h5 : 64 + (i - 32 - 32) = i := by omega
      simp [h1, h2, h4, h5]

/-- Bit `i` of four bytes put together. -/
theorem bytes_getLsbD (a b c d : Byte) (i : Nat) :
    (a ++ b ++ c ++ d : BitVec 32).getLsbD i =
      if i < 8 then d.getLsbD i
      else if i - 8 < 8 then c.getLsbD (i - 8)
      else if i - 8 - 8 < 8 then b.getLsbD (i - 8 - 8)
      else a.getLsbD (i - 8 - 8 - 8) := by
  have h1 : (a ++ b ++ c ++ d : BitVec 32).getLsbD i =
      if i < 8 then d.getLsbD i else (a ++ b ++ c).getLsbD (i - 8) :=
    BitVec.getLsbD_append (x := a ++ b ++ c) (y := d)
  have h2 : (a ++ b ++ c).getLsbD (i - 8) =
      if i - 8 < 8 then c.getLsbD (i - 8) else (a ++ b).getLsbD (i - 8 - 8) :=
    BitVec.getLsbD_append (x := a ++ b) (y := c)
  have h3 : (a ++ b).getLsbD (i - 8 - 8) =
      if i - 8 - 8 < 8 then b.getLsbD (i - 8 - 8) else a.getLsbD (i - 8 - 8 - 8) :=
    BitVec.getLsbD_append (x := a) (y := b)
  rw [h1, h2, h3]

/-- The four bytes of a word put together give the word. -/
theorem bytes_append (w : BitVec 32) :
    w.extractLsb' 24 8 ++ w.extractLsb' 16 8 ++ w.extractLsb' 8 8 ++ w.extractLsb' 0 8 = w := by
  apply BitVec.eq_of_getLsbD_eq
  intro i hi
  have hi' : i < 32 := hi
  rw [bytes_getLsbD]
  simp only [BitVec.getLsbD_extractLsb']
  by_cases h1 : i < 8
  · simp [h1]
  · by_cases h2 : i - 8 < 8
    · have b : 8 + (i - 8) = i := by omega
      simp [h1, h2, b]
    · by_cases h3 : i - 8 - 8 < 8
      · have b : 16 + (i - 8 - 8) = i := by omega
        simp [h1, h2, h3, b]
      · have b : 24 + (i - 8 - 8 - 8) = i := by omega
        have c : i - 8 - 8 - 8 < 8 := by omega
        simp [h1, h2, h3, b, c]

/-- Byte 0 of four bytes put together. -/
@[simp] theorem byte0_append (a b c d : Byte) : (a ++ b ++ c ++ d : BitVec 32).extractLsb' 0 8 = d := by
  apply BitVec.eq_of_getLsbD_eq
  intro i hi
  have h1 : 0 + i = i := by omega
  rw [BitVec.getLsbD_extractLsb', bytes_getLsbD, h1, if_pos hi]
  simp [hi]

/-- Byte 1 of four bytes put together. -/
@[simp] theorem byte1_append (a b c d : Byte) : (a ++ b ++ c ++ d : BitVec 32).extractLsb' 8 8 = c := by
  apply BitVec.eq_of_getLsbD_eq
  intro i hi
  have h1 : ¬ (8 + i < 8) := by omega
  have h2 : 8 + i - 8 = i := by omega
  rw [BitVec.getLsbD_extractLsb', bytes_getLsbD, if_neg h1, h2, if_pos hi]
  simp [hi]

/-- Byte 2 of four bytes put together. -/
@[simp] theorem byte2_append (a b c d : Byte) : (a ++ b ++ c ++ d : BitVec 32).extractLsb' 16 8 = b := by
  apply BitVec.eq_of_getLsbD_eq
  intro i hi
  have h1 : ¬ (16 + i < 8) := by omega
  have h2 : ¬ (16 + i - 8 < 8) := by omega
  have h3 : 16 + i - 8 - 8 = i := by omega
  rw [BitVec.getLsbD_extractLsb', bytes_getLsbD, if_neg h1, if_neg h2, h3, if_pos hi]
  simp [hi]

/-- Byte 3 of four bytes put together. -/
@[simp] theorem byte3_append (a b c d : Byte) : (a ++ b ++ c ++ d : BitVec 32).extractLsb' 24 8 = a := by
  apply BitVec.eq_of_getLsbD_eq
  intro i hi
  have h1 : ¬ (24 + i < 8) := by omega
  have h2 : ¬ (24 + i - 8 < 8) := by omega
  have h3 : ¬ (24 + i - 8 - 8 < 8) := by omega
  have h4 : 24 + i - 8 - 8 - 8 = i := by omega
  rw [BitVec.getLsbD_extractLsb', bytes_getLsbD, if_neg h1, if_neg h2, if_neg h3, h4]
  simp [hi]

@[simp] theorem unpackTime_packTime (t : Time4) : unpackTime (packTime t) = t := by
  cases t; simp [unpackTime, packTime]

@[simp] theorem packTime_unpackTime (w : BitVec 32) : packTime (unpackTime w) = w := bytes_append w

@[simp] theorem namedKey_codeOfKey (k : LogicalKey) : namedKey? (codeOfKey k) = some k := by
  cases k <;> decide

/-- A code that names a key is that key's code. -/
theorem codeOfKey_of_named (c : BitVec 5) (k : LogicalKey) (h : namedKey? c = some k) : codeOfKey k = c := by
  have := List.find?_some h
  simpa using this

/-- Different keys have different codes. -/
theorem codeOfKey_injective (k l : LogicalKey) (h : codeOfKey k = codeOfKey l) : k = l := by
  have := congrArg namedKey? h
  simpa using this

theorem encode_ofKey (k : LogicalKey) : encode (Instr.ofKey k) = .key .loop (codeOfKey k) := by
  cases k <;> rfl

/-- What the must-be-zero check can answer: the instruction, or the rejection. -/
theorem ifZero_instr (z : Bool) (i j : Instr) : ifZero z i = .instr j ↔ z = true ∧ i = j := by
  cases z <;> simp [ifZero]

theorem ifZero_rejected (z : Bool) (i : Instr) (r : Reject) :
    ifZero z i = .rejected r ↔ z = false ∧ r = .mustBeZero := by
  cases z <;> simp [ifZero, eq_comm]

theorem isBit0_iff (g : Gap) : isBit0 g = true ↔ 957 ≤ g.toNat ∧ g.toNat ≤ 1293 := by
  simp [isBit0, inWindow, Config.bit0Lo, Config.bit0Hi]

theorem isBit1_iff (g : Gap) : isBit1 g = true ↔ 1913 ≤ g.toNat ∧ g.toNat ≤ 2587 := by
  simp [isBit1, inWindow, Config.bit1Lo, Config.bit1Hi]

theorem isRepeatGap_iff (g : Gap) : isRepeatGap g = true ↔ 9563 ≤ g.toNat ∧ g.toNat ≤ 12937 := by
  simp [isRepeatGap, inWindow, Config.rptLo, Config.rptHi]

theorem isStaleGap_iff (g : Gap) : isStaleGap g = true ↔ 15000 < g.toNat := by
  simp [isStaleGap, Config.tSilence]

namespace Machine

/-! ### Keys and the mailbox -/

@[simp] theorem keyOfCode_codeOfKey (k : LogicalKey) : keyOfCode (codeOfKey k) = k := by
  simp [keyOfCode]

theorem keymapRef_wf : KeyMap.wf keymapRef = true := by decide

/-- KEYMAP is always a legal table. -/
theorem keymap_wf : KeyMap.wf keymap = true := by
  unfold keymap
  split
  · assumption
  · exact keymapRef_wf

/-- What RESOLVE can answer: UNRECOGNIZED, or the key of an entry of the table. -/
theorem resolveWith_mem (m : KeyMap) (c : Byte) :
    resolveWith m c = .unrecognized ∨ ∃ e ∈ m, resolveWith m c = e.2 := by
  unfold resolveWith
  split
  · next e h => exact .inr ⟨e, List.mem_of_find?_eq_some h, rfl⟩
  · exact .inl rfl

@[simp] theorem kindOfBit_bitOfKind (k : FrameKind) : kindOfBit (bitOfKind k) = k := by cases k <;> rfl

/-- The take answers the flag and the pending key's code, and empties the mailbox. -/
theorem takeMailbox_eq (s : State) : takeMailbox s = ((s.mailbox.pressed, takenCode s.mailbox), s.clearPressed) := rfl

/-- The code a take returns stands for the key MB_KEY stands for. -/
@[simp] theorem keyOfCode_takenCode (m : Mailbox) : keyOfCode (takenCode m) = keyOfCode m.key := by
  unfold takenCode
  split <;> simp

/-- The code of a logical key is returned as MB_KEY holds it. -/
theorem takenCode_codeOfKey (m : Mailbox) (k : LogicalKey) (h : m.key = codeOfKey k) : takenCode m = m.key := by
  simp [takenCode, h]

/-- With no key pending MB_KEY is returned as it is. -/
theorem takenCode_empty (m : Mailbox) (h : m.pressed = false) : takenCode m = m.key := by simp [takenCode, h]

/-! ### The decoder -/

/-- DECODE over a word either accepts it or drops it. -/
theorem acceptWord_cases (w : BitVec 32) (s : State) :
    (checksumOk w = true ∧ acceptWord w s =
      (true, ((s.setAcc 0).recordDecode (frameAddress w) (frameCommand w)).emit
        (.frame (frameAddress w) (frameCommand w) .normal))) ∨
    (checksumOk w = false ∧ acceptWord w s = (false, (s.setAcc 0).dropFrame .checksumFail)) := by
  unfold acceptWord
  cases h : checksumOk w <;> simp

/-- REPEAT either emits the last pair or does nothing. -/
theorem emitRepeat_cases (s : State) :
    (s.decoder.valid = true ∧ emitRepeat s = (true, s.emit (.frame s.decoder.addr s.decoder.cmd .repeated))) ∨
    (s.decoder.valid = false ∧ emitRepeat s = (false, s)) := by
  unfold emitRepeat
  cases h : s.decoder.valid <;> simp

/-- The shifted word: the new bit at the top, every other bit one lower. -/
theorem shiftInBit_getLsbD (w : BitVec 32) (b : Bool) (i : Nat) (hi : i < 32) :
    (shiftInBit w b).getLsbD i = if i = 31 then b else w.getLsbD (i + 1) := by
  unfold shiftInBit
  by_cases h : i = 31
  · subst h
    cases b <;> simp
  · have h1 : i < 31 := by omega
    have h2 : ¬ (31 ≤ i) := by omega
    rw [BitVec.getLsbD_or, BitVec.getLsbD_shiftLeft, BitVec.getLsbD_ushiftRight]
    simp [h, h1, Nat.add_comm 1 i]

/-- Assembling after one more gap. -/
theorem assembleWord_cons (w : BitVec 32) (g : Gap) (rest : List Gap) :
    assembleWord w (g :: rest) = (classifyGap g).bind (fun b => assembleWord (shiftInBit w b) rest) := by
  rw [assembleWord]
  cases classifyGap g <;> rfl

/-! ### Capture -/

/-- What the stale check can answer. -/
theorem staleCheck_ok (t : Timestamp) (c c' : Capture) (h : staleCheck t c = .ok c') :
    (c.ebCnt = 0 ∧ c' = c) ∨
    (c.ebCnt ≠ 0 ∧ c.ebCnt.toNat - 1 < 34 ∧ ∃ last, c.cells.read (c.ebCnt.toNat - 1) = some last ∧
      ((isStaleGap (dt t last) = true ∧ c' = { c with ebCnt := 0 }) ∨
       (isStaleGap (dt t last) = false ∧ c' = c))) := by
  unfold staleCheck at h
  by_cases h0 : c.ebCnt = 0
  · rw [if_pos h0] at h
    cases h
    exact .inl ⟨h0, rfl⟩
  · rw [if_neg h0] at h
    cases hr : readCell c.cells (c.ebCnt.toNat - 1) with
    | error f => rw [hr] at h; cases h
    | ok last =>
      rw [hr] at h
      cases h
      obtain ⟨h1, h2⟩ := (readCell_ok _ _ _).mp hr
      refine .inr ⟨h0, h1, last, h2, ?_⟩
      cases hs : isStaleGap (dt t last) <;> simp

/-- What the repeat test can answer. -/
theorem repeatTest_ok (t : Timestamp) (c : Capture) (b : Bool) (h : repeatTest t c = .ok b) :
    (c.ebCnt ≠ 1 ∧ b = false) ∨ (c.ebCnt = 1 ∧ ∃ first, c.cells.read 0 = some first ∧ b = isRepeatGap (dt t first)) := by
  unfold repeatTest at h
  by_cases h1 : c.ebCnt = 1
  · rw [if_pos h1] at h
    cases hr : readCell c.cells 0 with
    | error f => rw [hr] at h; cases h
    | ok first =>
      rw [hr] at h
      cases h
      exact .inr ⟨h1, first, ((readCell_ok _ _ _).mp hr).2, rfl⟩
  · rw [if_neg h1] at h
    cases h
    exact .inl ⟨h1, rfl⟩

/-- What the append can answer. -/
theorem appendEdge_ok (t : Timestamp) (c c' : Capture) :
    appendEdge t c = .ok c' ↔
      c.ebCnt.toNat < 34 ∧ c' = { cells := c.cells.write c.ebCnt.toNat t, ebCnt := c.ebCnt + 1 } := by
  unfold appendEdge
  cases h : writeCell c.cells c.ebCnt.toNat t with
  | error f =>
    have : ¬ c.ebCnt.toNat < 34 := by
      intro hlt
      have := (writeCell_ok c.cells _ _ t).mpr ⟨hlt, rfl⟩
      rw [this] at h
      cases h
    simp [this]
  | ok m =>
    obtain ⟨h1, rfl⟩ := (writeCell_ok _ _ _ _).mp h
    simp [h1, eq_comm]

/-- What the decode of a full buffer writes, apart from the count: the capture group is as before. -/
theorem decodeAndPublish_capture (m : KeyMap) (w : Option (BitVec 32)) (s : State) :
    (decodeAndPublish m w s).capture = s.capture := by
  cases w with
  | none => rfl
  | some w =>
    rcases acceptWord_cases w s with ⟨_, h⟩ | ⟨_, h⟩ <;> simp [decodeAndPublish, h, consumeFrame]

/-- The decode of a full buffer leaves the workflow registers. -/
theorem decodeAndPublish_workflow (m : KeyMap) (w : Option (BitVec 32)) (s : State) :
    (decodeAndPublish m w s).workflow = s.workflow := by
  cases w with
  | none => rfl
  | some w =>
    rcases acceptWord_cases w s with ⟨_, h⟩ | ⟨_, h⟩ <;> simp [decodeAndPublish, h, consumeFrame]

/-- The mailbox after the decode of a full buffer: as before, or the resolved key of the frame. -/
theorem decodeAndPublish_mailbox (m : KeyMap) (w : Option (BitVec 32)) (s : State) :
    (decodeAndPublish m w s).mailbox = s.mailbox ∨
      ∃ c, (decodeAndPublish m w s).mailbox = { pressed := true, key := codeOfKey (resolveWith m c) } := by
  cases w with
  | none => exact .inl rfl
  | some w =>
    rcases acceptWord_cases w s with ⟨_, h⟩ | ⟨_, h⟩
    · exact .inr ⟨frameCommand w, by simp [decodeAndPublish, h, consumeFrame]⟩
    · exact .inl (by simp [decodeAndPublish, h])

/-- A repeat either publishes the last command's key or does nothing. -/
theorem repeatAndPublish_cases (m : KeyMap) (s : State) :
    (s.decoder.valid = true ∧ repeatAndPublish m s =
      (s.emit (.frame s.decoder.addr s.decoder.cmd .repeated)).publishKey (resolveWith m s.decoder.cmd)) ∨
    (s.decoder.valid = false ∧ repeatAndPublish m s = s) := by
  rcases emitRepeat_cases s with ⟨h, h'⟩ | ⟨h, h'⟩ <;> simp [repeatAndPublish, h, h', consumeFrame]

/-- The gaps of values at consecutive indices. -/
theorem gapsOf_map_range' (f : Nat → Timestamp) (a n : Nat) :
    gapsOf ((List.range' a (n + 1)).map f) = (List.range' a n).map (fun i => dt (f (i + 1)) (f i)) := by
  induction n generalizing a with
  | zero => rfl
  | succ n ih =>
    rw [List.range'_succ, List.map_cons, List.range'_succ, List.map_cons, gapsOf, ← List.map_cons (f := f),
      ← List.range'_succ, ih (a + 1), List.range'_succ, List.map_cons]

/-- What item 3 of R23 says of the gaps at consecutive indices. -/
theorem legalGaps_map_range' (f : Nat → Timestamp) (n : Nat) (h : ∀ i, i < n → (dt (f (i + 1)) (f i)).toNat ≤ 15000)
    (h0 : 0 < n → ¬ (9563 ≤ (dt (f 1) (f 0)).toNat ∧ (dt (f 1) (f 0)).toNat ≤ 12937)) :
    legalGaps ((List.range' 0 n).map (fun i => dt (f (i + 1)) (f i))) = true := by
  cases n with
  | zero => rfl
  | succ n =>
    have hr : isRepeatGap (dt (f 1) (f 0)) = false :=
      Bool.eq_false_iff.mpr (fun hh => h0 (Nat.succ_pos n) ((isRepeatGap_iff _).mp hh))
    have hs : ∀ i, i < n + 1 → isStaleGap (dt (f (i + 1)) (f i)) = false := fun i hi =>
      Bool.eq_false_iff.mpr (fun hh => Nat.not_lt.mpr (h i hi) ((isStaleGap_iff _).mp hh))
    rw [List.range'_succ, List.map_cons, legalGaps, ← List.map_cons (f := fun i => dt (f (i + 1)) (f i)),
      ← List.range'_succ, List.all_map, Bool.and_eq_true, List.all_eq_true]
    refine ⟨by simp [hr], fun i hi => ?_⟩
    simp only [List.mem_range'_1] at hi
    simp [hs i (by omega)]

/-- In a legal capture image an edge does what its steps do. -/
theorem onLegalCapture_legal (c : Capture) (o : Host.Outcome State Fault Refusal) (h : Safety.LegalCapture c) :
    onLegalCapture c o = o := by
  have hle := h.countInRange
  have hread : ∀ i, i < c.ebCnt.toNat → c.cells.read i = some ((c.cells.read i).getD 0) := fun i hi => by
    obtain ⟨t, ht⟩ := h.written i hi
    simp [ht]
  have hcells := readCells_map c.cells (fun i => (c.cells.read i).getD 0) (List.range' 0 c.ebCnt.toNat)
    (fun i hi => by
      simp only [List.mem_range'_1] at hi
      exact ⟨by omega, hread i (by omega)⟩)
  have hlegal : legalGaps (gapsOf ((List.range' 0 c.ebCnt.toNat).map (fun i => (c.cells.read i).getD 0))) = true := by
    cases hn : c.ebCnt.toNat with
    | zero => rfl
    | succ n =>
      rw [gapsOf_map_range']
      refine legalGaps_map_range' (fun i => (c.cells.read i).getD 0) n (fun i hi => ?_) (fun hpos => ?_)
      · exact h.gapsShort i _ _ (by omega) (hread i (by omega)) (hread (i + 1) (by omega))
      · exact h.firstGapNoRepeat _ _ (by omega) (hread 0 (by omega)) (hread 1 (by omega))
  have hcap : ¬ Config.edgeCap ≤ c.ebCnt.toNat := by simp only [Config.edgeCap]; omega
  rw [onLegalCapture, if_neg hcap, hcells]
  exact if_pos hlegal

/-- Where an edge answers a next state, its steps do, and the stored edges are legal. -/
theorem onLegalCapture_next (c : Capture) (o : Host.Outcome State Fault Refusal) (s' : State)
    (h : onLegalCapture c o = .next s') :
    c.ebCnt.toNat < 34 ∧ o = .next s' ∧
      ∃ ts, readCells c.cells (List.range' 0 c.ebCnt.toNat) = .ok ts ∧ legalGaps (gapsOf ts) = true := by
  unfold onLegalCapture at h
  split at h
  · cases h
  · next hlt =>
    refine ⟨by simp only [Config.edgeCap] at hlt; omega, ?_⟩
    cases hr : readCells c.cells (List.range' 0 c.ebCnt.toNat) with
    | error f => rw [hr] at h; cases h
    | ok ts =>
      simp only [hr] at h
      split at h
      · next hl => exact ⟨h, ts, rfl, hl⟩
      · cases h

/-- What the four steps can do when they answer a next state: a repeat, an append, or a full frame. -/
theorem edgeSteps_next (m : KeyMap) (t : Timestamp) (s s' : State) (h : edgeSteps m t s = .next s') :
    ∃ c, staleCheck t s.capture = .ok c ∧
      ((repeatTest t c = .ok true ∧ s' = (repeatAndPublish m { s.begin with capture := c }).setCount 0) ∨
       (repeatTest t c = .ok false ∧ ∃ c', appendEdge t c = .ok c' ∧
         ((c'.ebCnt ≠ 34 ∧ s' = { s.begin with capture := c' }) ∨
          (c'.ebCnt = 34 ∧ ∃ w, bufferWord c'.cells = .ok w ∧
            s' = (decodeAndPublish m w { s.begin with capture := c' }).setCount 0)))) := by
  unfold edgeSteps at h
  cases hs : staleCheck t s.capture with
  | error f => rw [hs] at h; cases h
  | ok c =>
    rw [hs] at h
    refine ⟨c, rfl, ?_⟩
    cases hr : repeatTest t c with
    | error f => simp [hr] at h
    | ok b =>
      cases b with
      | true =>
        simp [hr] at h
        exact .inl ⟨rfl, h.symm⟩
      | false =>
        simp only [hr] at h
        refine .inr ⟨rfl, ?_⟩
        cases ha : appendEdge t c with
        | error f => simp [ha] at h
        | ok c' =>
          simp only [ha] at h
          refine ⟨c', rfl, ?_⟩
          unfold handOff at h
          by_cases h34 : c'.ebCnt = 34
          · rw [if_pos (show ({ s.begin with capture := c' } : State).capture.ebCnt = 34 from h34)] at h
            cases hb : bufferWord c'.cells with
            | error f => simp [hb] at h
            | ok w =>
              simp only [hb] at h
              cases h
              exact .inr ⟨h34, w, rfl, rfl⟩
          · have h34' : ({ s.begin with capture := c' } : State).capture.ebCnt ≠ 34 := h34
            rw [if_neg h34'] at h
            cases h
            exact .inl ⟨h34, rfl⟩

/-- What EDGE can do when it answers a next state: the image is legal and the four steps answer it. -/
theorem edgeWith_next (m : KeyMap) (t : Timestamp) (s s' : State) (h : edgeWith m t s = .next s') :
    s.capture.ebCnt.toNat < 34 ∧ edgeSteps m t s = .next s' ∧
      ∃ ts, readCells s.capture.cells (List.range' 0 s.capture.ebCnt.toNat) = .ok ts ∧
        legalGaps (gapsOf ts) = true := onLegalCapture_next _ _ _ h

/-- What SYM_STALE's restart can do when it answers a next state. -/
theorem restartBuffer_next (g : Gap) (s s' : State) (h : restartBuffer g s = .next s') :
    (s.capture.ebCnt = 0 ∧ s' = s.begin) ∨
    (s.capture.ebCnt ≠ 0 ∧ ∃ last, s.capture.cells.read (s.capture.ebCnt.toNat - 1) = some last ∧
      s' = { s.begin with capture := { cells := s.capture.cells.write 0 (last + g), ebCnt := 1 } }) := by
  unfold restartBuffer at h
  by_cases h0 : s.capture.ebCnt = 0
  · rw [if_pos h0] at h
    cases h
    exact .inl ⟨h0, rfl⟩
  · rw [if_neg h0] at h
    cases hr : readCell s.capture.cells (s.capture.ebCnt.toNat - 1) with
    | error f => rw [hr] at h; cases h
    | ok last =>
      have ha := (appendEdge_ok (last + g) { s.capture with ebCnt := 0 } _).mpr ⟨by simp, rfl⟩
      simp only [hr, ha] at h
      cases h
      exact .inr ⟨h0, last, ((readCell_ok _ _ _).mp hr).2, rfl⟩

/-! ### Workflow -/

@[simp] theorem modeOfBit_bitOfMode (m : Mode) : modeOfBit (bitOfMode m) = m := by cases m <;> decide

/-- Where the registers are a live state's, they are its image and its payload is legal. -/
theorem viewOf_live (r : WorkflowRegs) (w : WorkflowState) (h : viewOf r = .live w) :
    w.legal = true ∧ r = imageOf w := by
  unfold viewOf at h
  cases hs : selectedState r with
  | none => rw [hs] at h; cases h
  | some v =>
    rw [hs] at h
    by_cases hc : (v.legal && decide (imageOf v = r)) = true
    · simp only [hc, if_true] at h
      cases h
      simp at hc
      exact ⟨hc.1, hc.2.symm⟩
    · simp only [hc] at h
      cases h

/-- The image of a legal state stands for that state. -/
theorem viewOf_imageOf (w : WorkflowState) (h : w.legal = true) : viewOf (imageOf w) = .live w := by
  cases w with
  | initialScreen => rfl
  | selectCups => rfl
  | scheduleOrNow c => simp [viewOf, selectedState, imageOf, h]
  | brewing c m => simp [viewOf, selectedState, imageOf, h]
  | scheduling c => simp [viewOf, selectedState, imageOf, h]
  | waiting c t => simp [viewOf, selectedState, imageOf, h, WorkflowRegs.target]

/-- The cups a key selects are in 1..5. -/
theorem cupsOfKey_legal (k : LogicalKey) (n : BitVec 3) (h : cupsOfKey k = some n) : cupsLegal n = true := by
  cases k <;> simp [cupsOfKey] at h <;> subst h <;> decide

/-- A transition from a legal state gives a legal state. -/
theorem transition_legal (w : WorkflowState) (e : WorkflowEvent) (h : w.legal = true) :
    (transition w e).1.legal = true := by
  cases w <;> cases e <;> simp only [transition, initialScreenKey, selectCupsKey, scheduleOrNowKey]
  case selectCups.key k =>
    split
    · rfl
    · cases hk : cupsOfKey k with
      | none => rfl
      | some n => exact cupsOfKey_legal k n hk
  all_goals first | exact h | (split <;> first | exact h | rfl | (split <;> exact h)) | rfl

@[simp] theorem applyEvent_capture (w : WorkflowState) (e : WorkflowEvent) (s : State) :
    (applyEvent w e s).capture = s.capture := by simp [applyEvent]
@[simp] theorem applyEvent_decoder (w : WorkflowState) (e : WorkflowEvent) (s : State) :
    (applyEvent w e s).decoder = s.decoder := by simp [applyEvent]
@[simp] theorem applyEvent_mailbox (w : WorkflowState) (e : WorkflowEvent) (s : State) :
    (applyEvent w e s).mailbox = s.mailbox := by simp [applyEvent]
@[simp] theorem applyEvent_workflow (w : WorkflowState) (e : WorkflowEvent) (s : State) :
    (applyEvent w e s).workflow = imageOf (transition w e).1 := by simp [applyEvent]
@[simp] theorem applyEvent_work (w : WorkflowState) (e : WorkflowEvent) (s : State) :
    (applyEvent w e s).work = s.work := by simp [applyEvent]
@[simp] theorem applyEvent_port (w : WorkflowState) (e : WorkflowEvent) (s : State) :
    (applyEvent w e s).port = { s.port with events := s.port.events ++ (transition w e).2.toList } := by
  simp [applyEvent, State.emitEffect_port]

/-- The key row of a key is the key's transition. -/
theorem exec_ofKey (k : LogicalKey) (s : State) : exec (Instr.ofKey k) s = keyEvent k s := by
  cases k <;> rfl

end Machine
end Sys2Proof
end

