-- ==== Sys2Proof/Laws/PerInstr.lean ====
section
/-! SUPPORT. The family EncodeFormat: every instruction is encoded in the format its row of spec/opcode_table.json gives
(30_encoding.md R60). -/

namespace Sys2Proof.Laws.EncodeFormat

/-- The encoding of `i` is a word of the format of its row. -/
def Statement (i : Instr) : Prop := (encode i).format = i.format

theorem nop : Statement .nop := rfl
theorem edge (t : Timestamp) : Statement (.edge t) := rfl
theorem poll (now : Time4) : Statement (.poll now) := rfl
theorem prepDone : Statement .prepDone := rfl
theorem schedCfg (time : Time4) (valid : Bool) : Statement (.schedCfg time valid) := rfl
theorem mboxTake : Statement .mboxTake := rfl
theorem validate (target current : Time4) : Statement (.validate target current) := rfl
theorem reached (target current : Time4) : Statement (.reached target current) := rfl
theorem reset : Statement .reset := rfl
theorem decode (ncmd cmd naddr addr : Byte) : Statement (.decode ncmd cmd naddr addr) := rfl
theorem repeatCode (g : Gap) : Statement (.repeatCode g) := rfl
theorem resolve (command : Byte) : Statement (.resolve command) := rfl
theorem publish (k : LogicalKey) : Statement (.publish k) := rfl
theorem symBit0 (g : Gap) : Statement (.symBit0 g) := rfl
theorem symBit1 (g : Gap) : Statement (.symBit1 g) := rfl
theorem symBad (g : Gap) : Statement (.symBad g) := rfl
theorem symStale (g : Gap) : Statement (.symStale g) := rfl
theorem keyDigit0 : Statement .keyDigit0 := rfl
theorem keyDigit1 : Statement .keyDigit1 := rfl
theorem keyDigit2 : Statement .keyDigit2 := rfl
theorem keyDigit3 : Statement .keyDigit3 := rfl
theorem keyDigit4 : Statement .keyDigit4 := rfl
theorem keyDigit5 : Statement .keyDigit5 := rfl
theorem keyDigit6 : Statement .keyDigit6 := rfl
theorem keyDigit7 : Statement .keyDigit7 := rfl
theorem keyDigit8 : Statement .keyDigit8 := rfl
theorem keyDigit9 : Statement .keyDigit9 := rfl
theorem keyPower : Statement .keyPower := rfl
theorem keyMenu : Statement .keyMenu := rfl
theorem keyTest : Statement .keyTest := rfl
theorem keyPlus : Statement .keyPlus := rfl
theorem keyMinus : Statement .keyMinus := rfl
theorem keyBack : Statement .keyBack := rfl
theorem keyPrevious : Statement .keyPrevious := rfl
theorem keyPlay : Statement .keyPlay := rfl
theorem keyNext : Statement .keyNext := rfl
theorem keyClear : Statement .keyClear := rfl
theorem keyUnrecognized : Statement .keyUnrecognized := rfl

end Sys2Proof.Laws.EncodeFormat
end

