-- ==== Sys2Proof/Tests/Slice0.lean ====
section
/-! SUPPORT. The model's own tests: ill-formed terms that WellFormed refuses, words written out from the encodings, the
vectors of spec/95_test_vectors.md, and one witness for every statement that has hypotheses. Expected values come from
the spec; each test names its vector or rule. -/

namespace Sys2Proof.Tests

open Sys2Proof Sys2Proof.Machine Sys2Proof.Safety

/-! ### Ill-formed terms are refused (30_encoding.md R61, R62, R65) -/

theorem test_wf_refuses_bit0_outside_window :
    Instr.wf (.symBit0 956) = false ∧ Instr.wf (.symBit0 1294) = false := by decide

theorem test_wf_refuses_bit1_outside_window :
    Instr.wf (.symBit1 1912) = false ∧ Instr.wf (.symBit1 2588) = false := by decide

theorem test_wf_refuses_repeat_outside_window :
    Instr.wf (.repeatCode 9562) = false ∧ Instr.wf (.repeatCode 12938) = false := by decide

theorem test_wf_refuses_bad_symbol_that_is_a_bit_or_stale :
    Instr.wf (.symBad 957) = false ∧ Instr.wf (.symBad 2587) = false ∧ Instr.wf (.symBad 15001) = false := by decide

theorem test_wf_refuses_stale_symbol_at_threshold : Instr.wf (.symStale 15000) = false := by decide

theorem test_keymap_wf_refuses_fifteen_entries : KeyMap.wf (keymapRef.drop 1) = false := by decide

theorem test_keymap_wf_refuses_repeated_code : KeyMap.wf ((0xE2, .power) :: keymapRef.drop 1) = false := by decide

theorem test_keymap_wf_refuses_unrecognized : KeyMap.wf ((0xA2, .unrecognized) :: keymapRef.drop 1) = false := by
  decide

/-! ### Every constructor's decoding, from a word written out from its encoding -/

/-- OPC, A and B as 95_test_vectors.md section 7 writes them (30_encoding.md R72, R73). -/
theorem test_decode_operations :
    decode (.op 0x000000000000000000) = .instr .nop ∧
    decode (.op 0x0100000000000003E8) = .instr (.edge 1000) ∧
    decode (.op 0x020000000001010000) = .instr (.poll { day := 1, month := 1, hour := 0, minute := 0 }) ∧
    decode (.op 0x030000000000000000) = .instr .prepDone ∧
    decode (.op 0x040A03080000000000) =
      .instr (.schedCfg { day := 10, month := 3, hour := 8, minute := 0 } false) ∧
    decode (.op 0x050000000000000000) = .instr .mboxTake ∧
    decode (.op 0x060A0308000A030801) = .instr (.validate { day := 10, month := 3, hour := 8, minute := 0 }
      { day := 10, month := 3, hour := 8, minute := 1 }) ∧
    decode (.op 0x070C05071E0C05071F) = .instr (.reached { day := 12, month := 5, hour := 7, minute := 30 }
      { day := 12, month := 5, hour := 7, minute := 31 }) ∧
    decode (.op 0xFF0000000000000000) = .instr .reset := by decide

/-- The frame word, a command byte, the interrupt's key code 17 and the repeat gap (30_encoding.md R61, R63, R65, R67). -/
theorem test_decode_suboperations :
    decode (.frame 0xCB34ED12) = .instr (.decode 0xCB 0x34 0xED 0x12) ∧
    decode (.command 0xA8) = .instr (.resolve 0xA8) ∧
    decode (.key .interrupt 17) = .instr (.publish .play) ∧
    decode (.firstGap 11250) = .instr (.repeatCode 11250) := by decide

/-- The gaps at the ends of the windows (30_encoding.md R61, R62; vectors V16 to V20, V25, V29). -/
theorem test_decode_symbols :
    decode (.dataGap 957) = .instr (.symBit0 957) ∧ decode (.dataGap 1293) = .instr (.symBit0 1293) ∧
    decode (.dataGap 1913) = .instr (.symBit1 1913) ∧ decode (.dataGap 2587) = .instr (.symBit1 2587) ∧
    decode (.dataGap 956) = .instr (.symBad 956) ∧ decode (.dataGap 15000) = .instr (.symBad 15000) ∧
    decode (.dataGap 15001) = .instr (.symStale 15001) := by decide

/-- The 21 key codes (30_encoding.md R67). -/
theorem test_decode_keys :
    decode (.key .loop 0) = .instr .keyDigit0 ∧ decode (.key .loop 1) = .instr .keyDigit1 ∧
    decode (.key .loop 2) = .instr .keyDigit2 ∧ decode (.key .loop 3) = .instr .keyDigit3 ∧
    decode (.key .loop 4) = .instr .keyDigit4 ∧ decode (.key .loop 5) = .instr .keyDigit5 ∧
    decode (.key .loop 6) = .instr .keyDigit6 ∧ decode (.key .loop 7) = .instr .keyDigit7 ∧
    decode (.key .loop 8) = .instr .keyDigit8 ∧ decode (.key .loop 9) = .instr .keyDigit9 ∧
    decode (.key .loop 10) = .instr .keyPower ∧ decode (.key .loop 11) = .instr .keyMenu ∧
    decode (.key .loop 12) = .instr .keyTest ∧ decode (.key .loop 13) = .instr .keyPlus ∧
    decode (.key .loop 14) = .instr .keyMinus ∧ decode (.key .loop 15) = .instr .keyBack ∧
    decode (.key .loop 16) = .instr .keyPrevious ∧ decode (.key .loop 17) = .instr .keyPlay ∧
    decode (.key .loop 18) = .instr .keyNext ∧ decode (.key .loop 19) = .instr .keyClear ∧
    decode (.key .loop 31) = .instr .keyUnrecognized := by decide

/-- 30_encoding.md R74: what spells nothing. -/
theorem test_decode_rejections :
    decode (.op 0x080000000000000000) = .rejected .unassignedOpcode ∧
    decode (.op 0x000000000000000001) = .rejected .mustBeZero ∧
    decode (.op 0x040A03080000000002) = .rejected .mustBeZero ∧
    decode (.key .loop 20) = .rejected .noSuchKey ∧ decode (.key .interrupt 30) = .rejected .noSuchKey ∧
    decode (.firstGap 13500) = .rejected .noSymbol := by decide

/-- The table's numbering: 72-bit words, 32-bit frame words, padded key codes and command bytes. -/
theorem test_table_words :
    decodeTableWord 72 0x0100000000000003E8 = some (.edge 1000) ∧
    decodeTableWord 32 0x57A8FF00 = some (.decode 0x57 0xA8 0xFF 0x00) ∧
    decodeTableWord 8 17 = some .keyPlay ∧ decodeTableWord 8 0xA8 = some (.resolve 0xA8) ∧
    decodeTableWord 72 0x080000000000000000 = none := by decide

/-! ### Helpers -/

/-- The next state, where there is one. -/
def after (o : Host.Outcome State Fault Refusal) : Option State :=
  match o with
  | .next s => some s
  | .fault _ => none
  | .refused _ => none

/-- The events of the next state. -/
def events (o : Host.Outcome State Fault Refusal) : Option (List Event) := (after o).map (fun s => s.port.events)

/-- The reset state with some cells and a count. -/
def withCells (cells : Memory) (n : BitVec 6) : State := { State.reset with capture := { cells := cells, ebCnt := n } }

/-- A state with an accepted pair (0x00, 0xA8) behind it. -/
def withLast (s : State) : State := { s with decoder := { valid := true, addr := 0x00, cmd := 0xA8 } }

/-- A workflow state with a mailbox. -/
def inState (w : WorkflowState) (pressed : Bool) (k : LogicalKey) : State :=
  { State.reset with workflow := imageOf w, mailbox := { pressed := pressed, key := codeOfKey k } }

/-- 12 May, 7:30. -/
def may12 : Time4 := { day := 12, month := 5, hour := 7, minute := 30 }

/-- 12 May, 7:31. -/
def may12late : Time4 := { day := 12, month := 5, hour := 7, minute := 31 }

/-- The 34 timestamps of vector V1, as written there. -/
def v1 : List Timestamp :=
  [1000, 14500, 15625, 16750, 17875, 19000, 20125, 21250, 22375, 23500, 25750, 28000, 30250, 32500, 34750,
   37000, 39250, 41500, 42625, 43750, 44875, 47125, 48250, 50500, 51625, 53875, 56125, 58375, 60625, 61750,
   64000, 65125, 67375, 68500]

/-- The 34 timestamps of vector V30. -/
def v30 : List Timestamp := frameEdges 0x56A8FF00 1000

/-- The timestamps with every one from index `k` on moved by `d`. -/
def moved (k : Nat) (d : Timestamp) (ts : List Timestamp) : List Timestamp :=
  ts.take k ++ (ts.drop k).map (fun t => t + d)

/-- Edge `i` of a list. -/
def edgeAt (ts : List Timestamp) (i : Nat) : Timestamp := ts.getD i 0

/-- The state with the first 33 of some edges stored. -/
def almostFull (ts : List Timestamp) : State := withCells ((List.range 33).map (fun i => (i, edgeAt ts i))) 33

/-- Edge `i` of `n` edges 1125 apart, the last at `last`. -/
def evenEdge (n : Nat) (last : Timestamp) (i : Nat) : Timestamp := last - BitVec.ofNat 32 (1125 * (n - 1 - i))

/-- A buffer of `n` edges 1125 apart, the last at `last`. -/
def evenBuffer (n : Nat) (last : Timestamp) : State :=
  withCells ((List.range n).map (fun i => (i, evenEdge n last i))) (BitVec.ofNat 6 n)

/-- Cells that read as edges at legal gaps are a legal image. -/
theorem legalCapture_of_reads (c : Capture) (x : Nat → Timestamp) (hn : c.ebCnt.toNat ≤ 33)
    (hr : ∀ i, i < c.ebCnt.toNat → c.cells.read i = some (x i))
    (hg : ∀ i, i < c.ebCnt.toNat → (dt (x (i + 1)) (x i)).toNat ≤ 15000)
    (h0 : ¬ (9563 ≤ (dt (x 1) (x 0)).toNat ∧ (dt (x 1) (x 0)).toNat ≤ 12937)) : LegalCapture c where
  countInRange := hn
  written := fun i hi => ⟨x i, hr i hi⟩
  gapsShort := fun i a b hi ha hb => by
    rw [hr i (by omega)] at ha
    rw [hr (i + 1) hi] at hb
    cases ha
    cases hb
    exact hg i (by omega)
  firstGapNoRepeat := fun a b hi ha hb => by
    rw [hr 0 (by omega)] at ha
    rw [hr 1 (by omega)] at hb
    cases ha
    cases hb
    exact h0

/-- The empty buffer is a legal image. -/
theorem reset_legal : LegalCapture State.reset.capture :=
  legalCapture_of_reads _ (fun _ => 0) (by decide) (by decide) (by decide) (by decide)

/-- One stored edge is a legal image. -/
theorem oneEdge_legal (t : Timestamp) : LegalCapture (withCells [(0, t)] 1).capture :=
  legalCapture_of_reads _ (fun _ => t) (by simp [withCells])
    (fun i hi => by obtain rfl : i = 0 := Nat.lt_one_iff.mp hi; rfl) (by simp [dt]) (by simp [dt])

theorem evenBuffer_legal_2 : LegalCapture (evenBuffer 2 513500).capture :=
  legalCapture_of_reads _ (evenEdge 2 513500) (by decide) (by decide) (by decide) (by decide)

theorem evenBuffer_legal_5 : LegalCapture (evenBuffer 5 20000).capture :=
  legalCapture_of_reads _ (evenEdge 5 20000) (by decide) (by decide) (by decide) (by decide)

theorem evenBuffer_legal_32 : LegalCapture (evenBuffer 32 513500).capture :=
  legalCapture_of_reads _ (evenEdge 32 513500) (by decide) (by decide +kernel) (by decide +kernel) (by decide)

theorem evenBuffer_legal_33 : LegalCapture (evenBuffer 33 513500).capture :=
  legalCapture_of_reads _ (evenEdge 33 513500) (by decide) (by decide +kernel) (by decide +kernel) (by decide)

/-! ### Vectors of spec/95_test_vectors.md -/

/-- V1's nominal edges are those of FRAME 0x00 0xA8 @1000 (30_encoding.md R77). -/
theorem test_nominal_frame_v1 : frameEdges 0x57A8FF00 1000 = v1 := by decide

/-- V1, the 34th EDGE, over KEYMAP_REF. -/
theorem test_edge_v1 :
    (after (edgeWith keymapRef 68500 (almostFull v1))).map
      (fun s => (s.capture.ebCnt, s.decoder, s.mailbox, s.port.events)) =
    some (0, { valid := true, addr := 0x00, cmd := 0xA8 }, { pressed := true, key := 17 },
      [.frame 0x00 0xA8 .normal, .keyPublished .play]) := by decide +kernel

/-- V8: a repeat at the lower end of the window, over KEYMAP_REF. -/
theorem test_edge_v8 :
    (after (edgeWith keymapRef 509563 (withLast (withCells [(0, 500000)] 1)))).map
      (fun s => (s.capture, s.mailbox, s.port.events)) =
    some ({ cells := [(0, 500000)], ebCnt := 0 }, { pressed := true, key := 17 },
      [.frame 0x00 0xA8 .repeated, .keyPublished .play]) := by decide

/-- V55. -/
theorem test_poll_v55 : events (exec (.poll may12) (inState (.waiting 2 may12) true .back)) =
    some [.startPreparation 2 .scheduled] := by decide

/-- V47. -/
theorem test_poll_v47 : (after (exec (.poll may12) (inState (.scheduleOrNow 3) true .digit1))).map
      (fun s => (s.view, s.mailbox.pressed, s.port.events)) =
    some (.live (.brewing 3 .now), false, [.startPreparation 3 .now]) := by decide

/-- V51. -/
theorem test_prep_done_v51 : (after (exec .prepDone (inState (.brewing 3 .now) true .play))).map
      (fun s => (s.view, s.mailbox)) =
    some (.live .initialScreen, { pressed := false, key := 17 }) := by decide

/-- V53. -/
theorem test_sched_cfg_v53 : (after (exec (.schedCfg may12 true) (inState (.scheduling 2) true .clear))).map
      (fun s => (s.view, s.mailbox)) =
    some (.live (.waiting 2 may12), { pressed := false, key := 19 }) := by decide

/-- V54. -/
theorem test_sched_cfg_v54 : (after (exec (.schedCfg may12 false) (inState (.scheduling 2) false .clear))).map
      (fun s => s.workflow) = some WorkflowRegs.initial := by decide

/-- V37. -/
theorem test_mbox_take_v37 : (after (exec .mboxTake (inState (.scheduling 2) true .digit3))).map
      (fun s => (s.port.result, s.mailbox)) =
    some (some (.taken true 3), { pressed := false, key := 3 }) := by decide

/-- V60, V64, V65, V67. -/
theorem test_validate_vectors :
    isLater { day := 10, month := 3, hour := 8, minute := 0 } { day := 10, month := 3, hour := 8, minute := 1 } = false ∧
    isLater { day := 11, month := 3, hour := 0, minute := 0 } { day := 10, month := 3, hour := 23, minute := 59 } = true ∧
    isLater { day := 1, month := 4, hour := 0, minute := 0 } { day := 31, month := 3, hour := 23, minute := 59 } = true ∧
    isLater { day := 1, month := 1, hour := 8, minute := 0 } { day := 31, month := 12, hour := 23, minute := 0 } = false := by
  decide

/-- V71, V72. -/
theorem test_reached_vectors : isReached may12 may12 = true ∧ isReached may12 may12late = false := by decide

/-- V59a. -/
theorem test_nop_v59a : (after (exec .nop (inState (.scheduling 2) true .digit4))).map (fun s => s.mailbox) =
    some { pressed := true, key := 4 } := by decide

/-- 70_reset_and_hazards.md R230. -/
theorem test_reset_operation : (after (exec .reset (withLast (inState (.brewing 3 .now) true .play)))).map
      (fun s => (s.workflow, s.decoder.valid, s.mailbox.pressed, s.capture.ebCnt)) =
    some (WorkflowRegs.initial, false, false, 0) := by decide

/-- V30: the complement of the command is wrong. -/
theorem test_decode_row_v30 : (after (exec (.decode 0x56 0xA8 0xFF 0x00) State.reset)).map
      (fun s => (s.decoder.valid, s.port.events, s.port.dropped)) =
    some (false, [], some .checksumFail) := by decide

/-- S3: a repeat replays the last pair. -/
theorem test_repeat_row : events (exec (.repeatCode 11250) (withLast State.reset)) =
    some [.frame 0x00 0xA8 .repeated] := by decide

/-- V33, over KEYMAP_REF. -/
theorem test_resolve_v33 : resolveWith keymapRef 0x7A = .digit3 ∧ resolveWith keymapRef 0x5A = .unrecognized := by
  decide

/-- V36: a pending key is overwritten. -/
theorem test_publish_overwrites : (after (exec (.publish .digit3) (inState .initialScreen true .play))).map
      (fun s => s.mailbox) = some { pressed := true, key := 3 } := by decide

/-- 41_frame_decode.md R114: a 1 enters at bit 31, a 0 shifts it down. -/
theorem test_bit_symbols :
    (after (exec (.symBit1 2250) State.reset)).map (fun s => s.work.acc) = some 0x80000000 ∧
    (after (exec (.symBit0 1125) { State.reset with work := { acc := 0x80000000, free := 0 } })).map
      (fun s => s.work.acc) = some 0x40000000 := by decide

/-- 60_exceptions.md R201: after a BadTiming EB_CNT is 0 and LAST_* is unchanged. -/
theorem test_bad_symbol : (after (exec (.symBad 1600) (withLast (withCells [(0, 1000)] 1)))).map
      (fun s => (s.capture.ebCnt, s.decoder.valid, s.port.dropped)) = some (0, true, some .badTiming) := by decide

/-- V6: cell 4 holds 20000 and the edge is 15001 later. -/
theorem test_stale_symbol_v6 : (after (exec (.symStale 15001) (evenBuffer 5 20000))).map
      (fun s => (s.capture.cells.read 0, s.capture.ebCnt)) = some (some 35001, 1) := by decide

/-- 43_workflow.md R178, the three key-driven states: rules R153, R156, R157 and R159. -/
theorem test_key_rows :
    (after (exec .keyPlay (inState .initialScreen false .play))).map (fun s => s.view) = some (.live .selectCups) ∧
    (after (exec .keyDigit5 (inState .selectCups false .play))).map (fun s => s.view) =
      some (.live (.scheduleOrNow 5)) ∧
    events (exec .keyUnrecognized (inState .selectCups false .play)) = some [.reportInvalid] ∧
    events (exec .keyDigit2 (inState (.scheduleOrNow 1) false .play)) = some [.startScheduleConfig] := by decide

/-- 30_encoding.md R76: lines of a trace. -/
theorem test_parse_lines :
    parseLine "POLL 12 5 7 30".toList = .op (.poll may12) ∧ parseLine "EDGE 0x10B94 # last".toList = .op (.edge 68500) ∧
    parseLine "SCHED_CFG 12 5 7 30 2".toList = .bad ∧ parseLine "  # only a comment".toList = .blank := by decide

/-- 10_state.md R24: EDGE may coincide with one loop-context strobe. -/
theorem test_ports_present :
    (InputPorts.present { rst := false, irFall := true, ts := 1000, poll := true, now := may12, prepDone := false, cfgDone := false, cfg := may12, cfgValid := false, mbTake := false, qTarget := 0, qCurrent := 0 }) =
      some [.both (.op 0x0100000000000003E8) (.op 0x02000000000C05071E)] := by decide

/-- V2: the word of EDGE 1000, presented after reset, is the next to run. -/
theorem test_step_runs_presented_word :
    (after (step (State.reset.withFetchWord 72 0x0100000000000003E8))).map
      (fun s => (s.capture, s.port.input)) = some ({ cells := [(0, 1000)], ebCnt := 1 }, []) := by decide

/-- 30_encoding.md R68: the codes of a frame's kind and of a preparation's mode. -/
theorem test_kind_and_mode_codes :
    bitOfKind .normal = 0 ∧ bitOfKind .repeated = 1 ∧ bitOfMode .now = 0 ∧ bitOfMode .scheduled = 1 := by decide

/-- 30_encoding.md R74 and 93_implementation_defined.md U14: a reserved pending code is taken as UNRECOGNIZED. -/
theorem test_mbox_take_reserved_code :
    (after (exec .mboxTake { State.reset with mailbox := { pressed := true, key := 20 } })).map
      (fun s => (s.port.result, s.mailbox)) = some (some (.taken true 31), { pressed := false, key := 20 }) := by decide

/-- 10_state.md R23 item 3: an image with a stored gap of 15001 is refused by name, one with 15000 is not. -/
theorem test_edge_refuses_long_stored_gap :
    exec (.edge 15002) (withCells [(0, 0), (1, 15001)] 2) = .refused .captureImageOutsideInvariant ∧
    (after (exec (.edge 15002) (withCells [(0, 0), (1, 15000)] 2))).map (fun s => s.capture.ebCnt) = some 3 := ⟨rfl, rfl⟩

/-- Lines that spell a pseudo-operation are no line of the parser's (log 22). -/
theorem test_parse_pseudo_operation : parseLine "REPEAT @500000".toList = .bad := by decide

/-! ### Witnesses: concrete states and operands that meet the hypotheses of the statements -/

/-- DecodeInvertsEncode. -/
theorem witness_DecodeInvertsEncode :
    Instr.wf (.symBit0 957) = true ∧ Instr.wf (.symBit1 2587) = true ∧ Instr.wf (.symBad 15000) = true ∧
    Instr.wf (.symStale 15001) = true ∧ Instr.wf (.repeatCode 12937) = true ∧ Instr.wf (.edge 0xFFFFFFFF) = true := by
  decide

/-- DecodedWordsAreEncodings. -/
theorem witness_DecodedWordsAreEncodings :
    decode (.op 0x040C05071E00000001) = .instr (.schedCfg may12 true) ∧
    decode (.firstGap 9563) = .instr (.repeatCode 9563) := by decide

/-- UnassignedWordsSpellNothing, each clause at its ends. -/
theorem witness_UnassignedWordsSpellNothing :
    (8 ≤ (0x08 : BitVec 8).toNat ∧ (0x08 : BitVec 8).toNat ≤ 254) ∧
    (8 ≤ (0xFE : BitVec 8).toNat ∧ (0xFE : BitVec 8).toNat ≤ 254) ∧
    ((0x80000000 : BitVec 32) ≠ 0) ∧ ((2 : BitVec 32) ≠ 0 ∧ (2 : BitVec 32) ≠ 1) := by decide

/-- EdgeStaleCheckRestartsBuffer: the empty buffer, gap 15001 with a full count, gap 15000. -/
theorem witness_EdgeStaleCheckRestartsBuffer :
    State.reset.capture.ebCnt = 0 ∧
    (LegalCapture (evenBuffer 33 513500).capture ∧ (evenBuffer 33 513500).capture.ebCnt ≠ 0 ∧
      (evenBuffer 33 513500).capture.cells.read ((evenBuffer 33 513500).capture.ebCnt.toNat - 1) = some 513500 ∧
      15000 < (dt 528501 513500).toNat) ∧
    (LegalCapture (evenBuffer 32 513500).capture ∧ (evenBuffer 32 513500).capture.ebCnt ≠ 0 ∧
      (evenBuffer 32 513500).capture.ebCnt.toNat ≤ 32 ∧
      (evenBuffer 32 513500).capture.cells.read ((evenBuffer 32 513500).capture.ebCnt.toNat - 1) = some 513500 ∧
      (dt 528500 513500).toNat = 15000) :=
  ⟨by decide, ⟨evenBuffer_legal_33, by decide, by decide, by decide⟩, evenBuffer_legal_32, by decide, by decide,
    by decide, by decide⟩

/-- EdgeAppendsWithinBuffer: the empty buffer; the second edge at gap 9562; cell 32 at gap 15000. -/
theorem witness_EdgeAppendsWithinBuffer :
    (LegalCapture State.reset.capture ∧ State.reset.capture.ebCnt.toNat ≤ 32 ∧ State.reset.capture.ebCnt = 0) ∧
    (LegalCapture (withCells [(0, 500000)] 1).capture ∧
      (withCells [(0, 500000)] 1).capture.cells.read 0 = some 500000 ∧ (dt 509562 500000).toNat ≤ 15000 ∧
      ¬ ((withCells [(0, 500000)] 1).capture.ebCnt = 1 ∧ 9563 ≤ (dt 509562 500000).toNat ∧
        (dt 509562 500000).toNat ≤ 12937)) ∧
    (LegalCapture (evenBuffer 32 513500).capture ∧ (evenBuffer 32 513500).capture.ebCnt.toNat ≤ 32 ∧
      (evenBuffer 32 513500).capture.cells.read 31 = some 513500 ∧ (dt 528500 513500).toNat ≤ 15000 ∧
      ¬ ((evenBuffer 32 513500).capture.ebCnt = 1 ∧ 9563 ≤ (dt 528500 513500).toNat ∧
        (dt 528500 513500).toNat ≤ 12937)) :=
  ⟨⟨reset_legal, by decide⟩, ⟨oneEdge_legal _, by decide⟩, evenBuffer_legal_32, by decide⟩

/-- EdgeDetectsRepeatAtSecondEdge, first clause: gaps 9563 and 12937, with and without an accepted frame. -/
theorem witness_EdgeDetectsRepeatAtSecondEdge_repeat :
    ((withLast (withCells [(0, 500000)] 1)).capture.ebCnt = 1 ∧
      (withLast (withCells [(0, 500000)] 1)).capture.cells.read 0 = some 500000 ∧
      9563 ≤ (dt 509563 500000).toNat ∧ (dt 509563 500000).toNat ≤ 12937 ∧
      (withLast (withCells [(0, 500000)] 1)).decoder.valid = true) ∧
    ((withCells [(0, 500000)] 1).capture.ebCnt = 1 ∧ (withCells [(0, 500000)] 1).capture.cells.read 0 = some 500000 ∧
      9563 ≤ (dt 512937 500000).toNat ∧ (dt 512937 500000).toNat ≤ 12937 ∧
      (withCells [(0, 500000)] 1).decoder.valid = false) := by decide

/-- EdgeDetectsRepeatAtSecondEdge, the other clauses: gaps 9562 and 12938, and a gap in the window at cells 2 and 32. -/
theorem witness_EdgeDetectsRepeatAtSecondEdge_append :
    ((dt 509562 500000).toNat = 9562 ∧ (dt 512938 500000).toNat = 12938) ∧
    (LegalCapture (evenBuffer 2 513500).capture ∧ 2 ≤ (evenBuffer 2 513500).capture.ebCnt.toNat ∧
      (evenBuffer 2 513500).capture.ebCnt.toNat ≤ 32 ∧
      (evenBuffer 2 513500).capture.cells.read 1 = some 513500 ∧
      9563 ≤ (dt 523063 513500).toNat ∧ (dt 523063 513500).toNat ≤ 12937) ∧
    (LegalCapture (evenBuffer 32 513500).capture ∧ 2 ≤ (evenBuffer 32 513500).capture.ebCnt.toNat ∧
      (evenBuffer 32 513500).capture.ebCnt.toNat ≤ 32 ∧
      (evenBuffer 32 513500).capture.cells.read 31 = some 513500 ∧
      9563 ≤ (dt 526437 513500).toNat ∧ (dt 526437 513500).toNat ≤ 12937) :=
  ⟨by decide, ⟨evenBuffer_legal_2, by decide⟩, evenBuffer_legal_32, by decide⟩

/-- The cells of an almost full buffer hold the edges. -/
theorem almostFull_reads (ts : List Timestamp)
    (h : ∀ i, i < 33 → (almostFull ts).capture.cells.read i = some (edgeAt ts i)) (i : Nat) (h2 : i ≤ 32) :
    (almostFull ts).capture.cells.read i = some (edgeAt ts i) := h i (by omega)

/-- A bound on the first 33 gaps, checked one by one. -/
theorem gapsBelow (ts : List Timestamp)
    (h : ∀ i, i < 33 → (dt (edgeAt ts (i + 1)) (edgeAt ts i)).toNat ≤ 15000) (i : Nat) (h2 : i ≤ 32) :
    (dt (edgeAt ts (i + 1)) (edgeAt ts i)).toNat ≤ 15000 := h i (by omega)

/-- Vector V16: gap 5 is 956. -/
def v16 : List Timestamp := moved 7 (-169) v1

/-- V1 with its last gap 15000. -/
def v1Late : List Timestamp := moved 33 13875 v1

/-- V1 with a header gap of 12938, the shortest above the repeat window. -/
def v1Header12938 : List Timestamp := moved 1 (-562) v1

/-- EdgeDecodesCompleteFrame: vector V1, and V1 with a header gap of 12938. -/
theorem witness_EdgeDecodesCompleteFrame :
    ∀ ts ∈ [v1, v1Header12938], (almostFull ts).capture.ebCnt = 33 ∧
    (∀ i, i < 33 → (almostFull ts).capture.cells.read i = some (edgeAt ts i)) ∧
    (dt (edgeAt ts 1) (edgeAt ts 0)).toNat ≤ 15000 ∧
    ¬ (9563 ≤ (dt (edgeAt ts 1) (edgeAt ts 0)).toNat ∧ (dt (edgeAt ts 1) (edgeAt ts 0)).toNat ≤ 12937) ∧
    (∀ j, j < 32 → SpellsBit ((0x57A8FF00 : BitVec 32).getLsbD j) (dt (edgeAt ts (j + 2)) (edgeAt ts (j + 1)))) ∧
    frameAddress 0x57A8FF00 = ~~~ frameNaddr 0x57A8FF00 ∧ frameCommand 0x57A8FF00 = ~~~ frameNcmd 0x57A8FF00 := by
  unfold SpellsBit
  decide +kernel

/-- EdgeDropsFrameWithBadChecksum: vector V30. -/
theorem witness_EdgeDropsFrameWithBadChecksum :
    (almostFull v30).capture.ebCnt = 33 ∧
    (∀ i, i ≤ 32 → (almostFull v30).capture.cells.read i = some (edgeAt v30 i)) ∧
    (dt (edgeAt v30 1) (edgeAt v30 0)).toNat ≤ 15000 ∧
    ¬ (9563 ≤ (dt (edgeAt v30 1) (edgeAt v30 0)).toNat ∧ (dt (edgeAt v30 1) (edgeAt v30 0)).toNat ≤ 12937) ∧
    (∀ j, j < 32 → SpellsBit ((0x56A8FF00 : BitVec 32).getLsbD j) (dt (edgeAt v30 (j + 2)) (edgeAt v30 (j + 1)))) ∧
    ¬ ((0x56A8FF00 : BitVec 32).extractLsb' 0 8 = ~~~ (0x56A8FF00 : BitVec 32).extractLsb' 8 8 ∧
      (0x56A8FF00 : BitVec 32).extractLsb' 16 8 = ~~~ (0x56A8FF00 : BitVec 32).extractLsb' 24 8) :=
  ⟨rfl, almostFull_reads v30 (by decide +kernel), by decide, by decide, by unfold SpellsBit; decide +kernel, by decide⟩

/-- EdgeDropsFrameWithBadTiming: vector V16 (gap 5 is 956). -/
theorem witness_EdgeDropsFrameWithBadTiming :
    (almostFull v16).capture.ebCnt = 33 ∧
    (∀ i, i ≤ 32 → (almostFull v16).capture.cells.read i = some (edgeAt v16 i)) ∧
    (∀ i, i ≤ 32 → (dt (edgeAt v16 (i + 1)) (edgeAt v16 i)).toNat ≤ 15000) ∧
    ¬ (9563 ≤ (dt (edgeAt v16 1) (edgeAt v16 0)).toNat ∧ (dt (edgeAt v16 1) (edgeAt v16 0)).toNat ≤ 12937) ∧
    5 < 32 ∧ ¬ SpellsBit false (dt (edgeAt v16 (5 + 2)) (edgeAt v16 (5 + 1))) ∧
    ¬ SpellsBit true (dt (edgeAt v16 (5 + 2)) (edgeAt v16 (5 + 1))) :=
  ⟨rfl, almostFull_reads _ (by decide +kernel), gapsBelow _ (by decide +kernel), by decide, by decide,
    by unfold SpellsBit; decide, by unfold SpellsBit; decide⟩

/-- EdgeDropsFrameWithBadTiming: the last gap, gap 31, is 15000. -/
theorem witness_EdgeDropsFrameWithBadTiming_last :
    (almostFull v1Late).capture.ebCnt = 33 ∧
    (∀ i, i ≤ 32 → (almostFull v1Late).capture.cells.read i = some (edgeAt v1Late i)) ∧
    (∀ i, i ≤ 32 → (dt (edgeAt v1Late (i + 1)) (edgeAt v1Late i)).toNat ≤ 15000) ∧
    ¬ (9563 ≤ (dt (edgeAt v1Late 1) (edgeAt v1Late 0)).toNat ∧ (dt (edgeAt v1Late 1) (edgeAt v1Late 0)).toNat ≤ 12937) ∧
    31 < 32 ∧ ¬ SpellsBit false (dt (edgeAt v1Late (31 + 2)) (edgeAt v1Late (31 + 1))) ∧
    ¬ SpellsBit true (dt (edgeAt v1Late (31 + 2)) (edgeAt v1Late (31 + 1))) :=
  ⟨rfl, almostFull_reads _ (by decide +kernel), gapsBelow _ (by decide +kernel), by decide, by decide,
    by unfold SpellsBit; decide, by unfold SpellsBit; decide⟩

/-- EdgeFrameConditions: an append, and a repeat with no accepted frame (V12). -/
theorem witness_EdgeFrameConditions :
    (exec (.edge 1000) State.reset = .next (withCells [(0, 1000)] 1) ∧
      staleCheck 1000 State.reset.capture = .ok State.reset.capture) ∧
    (exec (.edge 511250) (withCells [(0, 500000)] 1) = .next (withCells [(0, 500000)] 0) ∧
      staleCheck 511250 (withCells [(0, 500000)] 1).capture = .ok (withCells [(0, 500000)] 1).capture ∧
      repeatTest 511250 (withCells [(0, 500000)] 1).capture = .ok true) := ⟨⟨rfl, rfl⟩, rfl, rfl, rfl⟩

/-- EdgesStopInIllegalCaptureImages, the first two clauses: counts 34 and 63; cell 0 or cell 32 unwritten. -/
theorem witness_EdgesStopInIllegalCaptureImages_count :
    ((∃ t, Instr.edge 1000 = .edge t) ∧ ∃ g, Instr.symStale 15001 = .symStale g) ∧
    (34 ≤ (withCells [] 34).capture.ebCnt.toNat ∧ 34 ≤ (withCells [] 63).capture.ebCnt.toNat) ∧
    ((withCells [] 1).capture.ebCnt.toNat ≤ 33 ∧ 0 < (withCells [] 1).capture.ebCnt.toNat ∧
      (withCells [] 1).capture.cells.read 0 = none) ∧
    ((withCells [] 33).capture.ebCnt.toNat ≤ 33 ∧ 32 < (withCells [] 33).capture.ebCnt.toNat ∧
      (withCells [] 33).capture.cells.read 32 = none) :=
  ⟨⟨⟨_, rfl⟩, _, rfl⟩, by decide, by decide, by decide⟩

/-- Two stored edges, at 0 and `b`. -/
def twoEdges (b : Timestamp) : State := withCells [(0, 0), (1, b)] 2

theorem twoEdges_written (b : Timestamp) (j : Nat) (h : j < (twoEdges b).capture.ebCnt.toNat) :
    ∃ t, (twoEdges b).capture.cells.read j = some t := by
  have h2 : j < 2 := h
  interval_cases j
  · exact ⟨0, rfl⟩
  · exact ⟨b, rfl⟩

/-- EdgesStopInIllegalCaptureImages, the last clause: a stored gap of 15001; a first gap of 9563 and of 12937. -/
theorem witness_EdgesStopInIllegalCaptureImages_gaps :
    (∀ b, (twoEdges b).capture.ebCnt.toNat ≤ 33 ∧
      (∀ j, j < (twoEdges b).capture.ebCnt.toNat → ∃ t, (twoEdges b).capture.cells.read j = some t) ∧
      0 + 1 < (twoEdges b).capture.ebCnt.toNat ∧ 2 ≤ (twoEdges b).capture.ebCnt.toNat ∧
      (twoEdges b).capture.cells.read 0 = some 0 ∧ (twoEdges b).capture.cells.read 1 = some b) ∧
    15000 < (dt 15001 0).toNat ∧ (9563 ≤ (dt 9563 0).toNat ∧ (dt 9563 0).toNat ≤ 12937) ∧
    (9563 ≤ (dt 12937 0).toNat ∧ (dt 12937 0).toNat ≤ 12937) :=
  ⟨fun b => ⟨by simp [twoEdges, withCells], twoEdges_written b, by simp [twoEdges, withCells],
    by simp [twoEdges, withCells], rfl, rfl⟩, by decide, by decide, by decide⟩

/-- CellsBeyondCountUnobservable: cell 5 differs and EB_CNT is 1. -/
theorem witness_CellsBeyondCountUnobservable :
    (∀ i, i < (withCells [(0, 1000)] 1).capture.ebCnt.toNat →
      Memory.read [(0, 1000), (5, 77)] i = (withCells [(0, 1000)] 1).capture.cells.read i) ∧
    exec (.edge 2125) (withCells [(0, 1000)] 1) = .next (withCells [(0, 1000), (1, 2125)] 2) := ⟨by decide, rfl⟩

/-- EmptyLastDecodeUnobservable. -/
theorem witness_EmptyLastDecodeUnobservable :
    State.reset.decoder.valid = false ∧ (LastDecode.mk false 0x12 0x34).valid = false ∧
    exec (.edge 1000) State.reset = .next (withCells [(0, 1000)] 1) := ⟨rfl, rfl, rfl⟩

/-- DecodeAcceptsComplementedWords: both clauses. -/
theorem witness_DecodeAcceptsComplementedWords :
    ((0x00 : Byte) = ~~~ 0xFF ∧ (0xA8 : Byte) = ~~~ 0x57) ∧ ¬ ((0x12 : Byte) = ~~~ 0x34 ∧ (0xA8 : Byte) = ~~~ 0x57) := by
  decide

/-- RepeatReplaysLastPair: both clauses. -/
theorem witness_RepeatReplaysLastPair :
    (withLast State.reset).decoder.valid = true ∧ State.reset.decoder.valid = false := by decide

/-- The 32 data gaps of vector V1. -/
def v1Gaps : List Gap := gapsOf (v1.drop 1)

/-- AssembledBitsArriveLowestFirst: the ends of the windows, and V1's gaps. -/
theorem witness_AssembledBitsArriveLowestFirst :
    (classifyGap 957 = some false ∧ classifyGap 2587 = some true) ∧
    (v1Gaps.length = 32 ∧ assembleWord 0 v1Gaps = some 0x57A8FF00 ∧ 31 < v1Gaps.length) := by decide +kernel

/-- SymbolStepsAgreeWithEdgeDecode. -/
theorem witness_SymbolStepsAgreeWithEdgeDecode :
    v1Gaps.length = 32 ∧ State.reset.work.acc = 0 ∧ assembleWord 0 v1Gaps = some 0x57A8FF00 := by decide +kernel

/-- StaleSymbolActsAsStaleEdge: a full count at gap 15001, and the empty buffer. -/
theorem witness_StaleSymbolActsAsStaleEdge :
    (LegalCapture (evenBuffer 33 513500).capture ∧ (evenBuffer 33 513500).capture.ebCnt ≠ 0 ∧
      (evenBuffer 33 513500).capture.cells.read ((evenBuffer 33 513500).capture.ebCnt.toNat - 1) = some 513500 ∧
      15000 < (15001 : Gap).toNat) ∧ State.reset.capture.ebCnt = 0 :=
  ⟨⟨evenBuffer_legal_33, by decide⟩, rfl⟩

/-- ResolveFollowsKeymap: KEYMAP has an entry. -/
theorem witness_ResolveFollowsKeymap_entry : ∃ e, e ∈ keymap := by
  have h := keymap_wf
  simp [KeyMap.wf, Config.nKeymap] at h
  exact List.exists_mem_of_ne_nil _ (fun hn => by simp [hn] at h)

/-- ResolveFollowsKeymap: some byte is in no entry of KEYMAP. -/
theorem witness_ResolveFollowsKeymap_default : ∃ c : Byte, ∀ e ∈ keymap, e.1 ≠ c := by
  by_contra h
  push Not at h
  have hk := keymap_wf
  simp [KeyMap.wf, Config.nKeymap] at hk
  have hs : (List.range 17).map (BitVec.ofNat 8) ⊆ keymap.map (fun e => e.1) := by
    intro c _
    obtain ⟨e, he, rfl⟩ := h c
    exact List.mem_map_of_mem he
  have hd : ((List.range 17).map (BitVec.ofNat 8)).Nodup := by decide
  have hl := (List.subperm_of_subset hd hs).length_le
  simp [hk.1.1] at hl

/-- UnlistedCommandsNumber240. -/
theorem witness_UnlistedCommandsNumber240 : KeyMap.wf keymapRef = true := by decide

/-- TakeReturnsAndEmptiesMailbox: UNRECOGNIZED pending, and no key pending. -/
theorem witness_TakeReturnsAndEmptiesMailbox :
    MailboxInv (inState (.scheduling 2) true .unrecognized).mailbox ∧ MailboxInv State.reset.mailbox :=
  ⟨fun _ => ⟨.unrecognized, rfl⟩, fun h => by cases h⟩

/-- A workflow state with a mailbox whose code may name no key. -/
def inStateCode (w : WorkflowState) (code : BitVec 5) : State :=
  { State.reset with workflow := imageOf w, mailbox := { pressed := true, key := code } }

/-- ReservedPendingCodesReadAsUnrecognized: codes 20 and 30, in each key-driven state. -/
theorem witness_ReservedPendingCodesReadAsUnrecognized :
    ∀ w ∈ [WorkflowState.initialScreen, .selectCups, .scheduleOrNow 1, .scheduleOrNow 5], ∀ c ∈ [(20 : BitVec 5), 30],
      (inStateCode w c).mailbox.pressed = true ∧ 20 ≤ (inStateCode w c).mailbox.key.toNat ∧
      (inStateCode w c).mailbox.key.toNat ≤ 30 ∧ (inStateCode w c).view = .live w := by decide

/-- PollInInitialScreen: PLAY pending, another key pending, no key pending. -/
theorem witness_PollInInitialScreen :
    ((inState .initialScreen true .play).view = .live .initialScreen ∧
      (inState .initialScreen true .play).mailbox.pressed = true ∧
      (inState .initialScreen true .play).mailbox.key = codeOfKey .play) ∧
    ((inState .initialScreen true .unrecognized).view = .live .initialScreen ∧
      (inState .initialScreen true .unrecognized).mailbox.pressed = true ∧
      (inState .initialScreen true .unrecognized).mailbox.key = codeOfKey .unrecognized ∧
      LogicalKey.unrecognized ≠ .play) ∧
    ((inState .initialScreen false .play).view = .live .initialScreen ∧
      (inState .initialScreen false .play).mailbox.pressed = false) := by decide

/-- PollInSelectCups: DIGIT_0, DIGIT_1 and DIGIT_5, a key of the last row, no key. -/
theorem witness_PollInSelectCups :
    (∀ k ∈ [LogicalKey.digit0, .digit1, .digit5, .digit6, .unrecognized],
      (inState .selectCups true k).view = .live .selectCups ∧ (inState .selectCups true k).mailbox.pressed = true ∧
      (inState .selectCups true k).mailbox.key = codeOfKey k) ∧
    ((LogicalKey.digit1, (1 : BitVec 3)) ∈
        [(LogicalKey.digit1, (1 : BitVec 3)), (.digit2, 2), (.digit3, 3), (.digit4, 4), (.digit5, 5)] ∧
      LogicalKey.digit6 ∉ [LogicalKey.digit0, .digit1, .digit2, .digit3, .digit4, .digit5]) ∧
    ((inState .selectCups false .menu).view = .live .selectCups ∧
      (inState .selectCups false .menu).mailbox.pressed = false) := by decide

/-- PollInScheduleOrNow with 1 and 5 cups: DIGIT_1, DIGIT_2, another key, no key. -/
theorem witness_PollInScheduleOrNow :
    (∀ c ∈ [(1 : BitVec 3), 5], ∀ k ∈ [LogicalKey.digit1, .digit2, .digit0],
      (inState (.scheduleOrNow c) true k).view = .live (.scheduleOrNow c) ∧
      (inState (.scheduleOrNow c) true k).mailbox.pressed = true ∧
      (inState (.scheduleOrNow c) true k).mailbox.key = codeOfKey k) ∧
    (LogicalKey.digit0 ≠ .digit1 ∧ LogicalKey.digit0 ≠ .digit2) ∧
    ((inState (.scheduleOrNow 5) false .play).view = .live (.scheduleOrNow 5) ∧
      (inState (.scheduleOrNow 5) false .play).mailbox.pressed = false) := by decide

/-- PollInBrewingAndScheduling with 1 and 5 cups. -/
theorem witness_PollInBrewingAndScheduling :
    (inState (.brewing 1 .scheduled) true .play).view = .live (.brewing 1 .scheduled) ∧
    (inState (.scheduling 5) true .play).view = .live (.scheduling 5) := by decide

/-- PollInWaiting: a tick that matches and one that does not (V55, V56). -/
theorem witness_PollInWaiting :
    (inState (.waiting 5 may12) true .back).view = .live (.waiting 5 may12) ∧
    (may12.day = may12.day ∧ may12.month = may12.month ∧ may12.hour = may12.hour ∧ may12.minute = may12.minute) ∧
    ¬ (may12late.day = may12.day ∧ may12late.month = may12.month ∧ may12late.hour = may12.hour ∧
      may12late.minute = may12.minute) := by decide

/-- A register image with a given WS and cups and all else zero. -/
def image (ws cups : BitVec 3) : State :=
  { State.reset with workflow := { WorkflowRegs.initial with ws := ws, cups := cups } }

/-- PollDefensiveReset: WS 6 and 7 (V59). -/
theorem witness_PollDefensiveReset : (image 6 4).workflow.ws = 6 ∧ (image 7 4).workflow.ws = 7 := by decide

/-- PollIgnoresClockOutsideWaiting. -/
theorem witness_PollIgnoresClockOutsideWaiting :
    ∀ c tgt, (inState (.scheduling 5) true .play).view ≠ .live (.waiting c tgt) := by
  intro c tgt h
  have : (inState (.scheduling 5) true .play).view = .live (.scheduling 5) := by decide
  rw [this] at h
  cases h

/-- PollIsTakeThenKeyRow, in each key-driven state. -/
theorem witness_PollIsTakeThenKeyRow :
    ∀ w ∈ [WorkflowState.initialScreen, .selectCups, .scheduleOrNow 1, .scheduleOrNow 5],
      (inState w true .digit2).view = .live w ∧ (inState w true .digit2).mailbox.pressed = true ∧
      (inState w true .digit2).mailbox.key = codeOfKey .digit2 := by decide

/-- PrepDoneReturnsToInitialScreen: Brewing, another state, WS 7. -/
theorem witness_PrepDoneReturnsToInitialScreen :
    (inState (.brewing 5 .now) true .play).view = .live (.brewing 5 .now) ∧
    ((inState (.waiting 1 may12) true .play).view = .live (.waiting 1 may12) ∧
      ∀ c m, WorkflowState.waiting 1 may12 ≠ .brewing c m) ∧
    (image 7 4).view = .notAState :=
  ⟨by decide, ⟨by decide, fun _ _ h => by cases h⟩, by decide⟩

/-- SchedCfgEntersWaitingOrReturns: Scheduling, another state, WS 6. -/
theorem witness_SchedCfgEntersWaitingOrReturns :
    (inState (.scheduling 5) true .clear).view = .live (.scheduling 5) ∧
    ((inState (.brewing 1 .now) true .play).view = .live (.brewing 1 .now) ∧
      ∀ c, WorkflowState.brewing 1 .now ≠ .scheduling c) ∧
    (image 6 4).view = .notAState :=
  ⟨by decide, ⟨by decide, fun _ h => by cases h⟩, by decide⟩

/-- IllegalWorkflowImagesRefused: a dead payload, and cups 0, 6 and 7 where live. -/
theorem witness_IllegalWorkflowImagesRefused :
    (image 0 1).view = .outsideInvariant ∧
    ∀ c ∈ [(0 : BitVec 3), 6, 7], (image 2 c).workflow.ws = 2 ∧ (image 2 c).workflow.cups = c ∧
      (image 2 c).view = .outsideInvariant := by decide

/-- KeyRowsFollowDispatchTable: a state for each clause. -/
theorem witness_KeyRowsFollowDispatchTable :
    (∀ w ∈ [WorkflowState.initialScreen, .selectCups, .scheduleOrNow 1, .scheduleOrNow 5, .scheduling 1,
        .brewing 5 .scheduled, .waiting 5 may12], (inState w true .play).view = .live w) ∧
    (image 6 0).view = .notAState := by decide

/-- ContextsWriteOnlyTheirGroups: MBOX_TAKE and EDGE, with a key pending. -/
theorem witness_ContextsWriteOnlyTheirGroups :
    ((Instr.mboxTake).context = some .loop ∧
      ∃ t, exec .mboxTake (inState .initialScreen true .play) = .next t) ∧
    ((Instr.edge 1000).context = some .interrupt ∧
      (inState .initialScreen true .play).mailbox.pressed = true ∧
      ∃ t, exec (.edge 1000) (inState .initialScreen true .play) = .next t) := ⟨⟨rfl, _, rfl⟩, rfl, rfl, _, rfl⟩

/-- LastValidClearedOnlyByReset: the repeat row, which reads LAST_*. -/
theorem witness_LastValidClearedOnlyByReset :
    (Instr.repeatCode 11250 ≠ .reset) ∧ (∃ t, exec (.repeatCode 11250) (withLast State.reset) = .next t) ∧
    (withLast State.reset).decoder.valid = true := ⟨by decide, ⟨_, rfl⟩, rfl⟩

/-- WaitingLeftOnlyByMatchingTick: the tick that matches, and a key row. -/
theorem witness_WaitingLeftOnlyByMatchingTick :
    (inState (.waiting 2 may12) true .back).view = .live (.waiting 2 may12) ∧
    (Instr.poll may12 ≠ .reset ∧ ∃ t, exec (.poll may12) (inState (.waiting 2 may12) true .back) = .next t) ∧
    (Instr.keyBack ≠ .reset ∧ ∃ t, exec .keyBack (inState (.waiting 2 may12) true .back) = .next t) :=
  ⟨by decide, ⟨by decide, _, rfl⟩, by decide, _, rfl⟩

/-- BrewingLeftOnlyByPrepDone: PREP_DONE, and a POLL. -/
theorem witness_BrewingLeftOnlyByPrepDone :
    (inState (.brewing 3 .now) true .play).view = .live (.brewing 3 .now) ∧
    (Instr.prepDone ≠ .reset ∧ ∃ t, exec .prepDone (inState (.brewing 3 .now) true .play) = .next t) ∧
    (Instr.poll may12 ≠ .reset ∧ ∃ t, exec (.poll may12) (inState (.brewing 3 .now) true .play) = .next t) :=
  ⟨by decide, ⟨by decide, _, rfl⟩, by decide, _, rfl⟩

/-- ValidateIsStrictlyLater, the clause on the year: January after December (V67). -/
theorem witness_ValidateIsStrictlyLater : (1 : Byte).toNat < (12 : Byte).toNat := by decide

/-- StepRunsDecodedOperation. -/
theorem witness_StepRunsDecodedOperation :
    (State.reset.present (.op 0x0100000000000003E8)).port.input = [.one (.op 0x0100000000000003E8)] ∧
    decode (.op 0x0100000000000003E8) = .instr (.edge 1000) := by decide

/-- StepIdleOrRefusedWithoutOperation: nothing presented, and a word with an unassigned OPC. -/
theorem witness_StepIdleOrRefusedWithoutOperation :
    State.reset.port.input = [] ∧
    ((State.reset.present (.op 0x080000000000000000)).port.input = [.one (.op 0x080000000000000000)] ∧
      decode (.op 0x080000000000000000) = .rejected .unassignedOpcode) := by decide

/-- SimultaneousOperationsTakeSomeOrder: EDGE 367500 and POLL 1 1 0 0 of program P6. -/
theorem witness_SimultaneousOperationsTakeSomeOrder :
    ({ State.reset with port := { State.reset.port with input := [.both (.op 0x010000000000059B8C) (.op 0x020000000001010000)] } } : State).port.input =
      [.both (.op 0x010000000000059B8C) (.op 0x020000000001010000)] ∧
    decode (.op 0x010000000000059B8C) = .instr (.edge 367500) ∧
    decode (.op 0x020000000001010000) = .instr (.poll { day := 1, month := 1, hour := 0, minute := 0 }) := by decide

/-- A good state away from reset: two edges 15000 apart, a schedule for five cups, UNRECOGNIZED pending. -/
def goodState : State :=
  { inState (.waiting 5 may12) true .unrecognized with
    capture := { cells := [(0, 500000), (1, 515000)], ebCnt := 2 } }

theorem goodState_capture : CaptureInv goodState.capture where
  canonical := by decide
  countInRange := by decide
  written := by
    intro i hi
    have h : i < 2 := hi
    interval_cases i
    · exact ⟨500000, rfl⟩
    · exact ⟨515000, rfl⟩
  gapsShort := by
    intro i a b hi ha hb
    have h : i + 1 < 2 := hi
    obtain rfl : i = 0 := by omega
    cases ha
    cases hb
    decide
  firstGapNoRepeat := by
    intro a b _ ha hb
    cases ha
    cases hb
    decide

/-- StepKeepsInvariant, OperationsKeepBlockInvariant and EveryInstructionCompletesInGoodStates: a good state in which a
presented NOP runs. -/
theorem witness_StepKeepsInvariant :
    RowInv (goodState.present (.op 0)) ∧ ∃ t, step (goodState.present (.op 0)) = .next t :=
  ⟨⟨goodState_capture, ⟨.waiting 5 may12, by decide⟩, fun _ => ⟨.unrecognized, rfl⟩⟩, _, rfl⟩

theorem witness_OperationsKeepBlockInvariant :
    (Instr.mboxTake).format = .op ∧ BlockInv goodState ∧ ∃ t, exec .mboxTake goodState = .next t :=
  ⟨rfl, ⟨goodState_capture, ⟨.waiting 5 may12, by decide⟩, fun _ => .inl rfl⟩, _, rfl⟩

theorem witness_EveryInstructionCompletesInGoodStates : RowInv goodState :=
  ⟨goodState_capture, ⟨.waiting 5 may12, by decide⟩, fun _ => ⟨.unrecognized, rfl⟩⟩

end Sys2Proof.Tests
end

section
/-! PROOFS. The family 00_scope.md. One step is one fetched and decoded operation (R6), and no operation stops in a state
that meets the invariant of 10_state.md R23 (R7). -/

namespace Sys2Proof.Machine

open Sys2Proof.Safety

/-! ### Fetch and step -/

theorem fetch_of_input_nil (s : State) (h : s.port.input = []) : fetch s = none := by
  simp [fetch, h]

/-- A word presented alone is applied next, with nothing else of the state touched. -/
theorem fetch_of_input_one (s : State) (w : CodeWord) (rest : List Presentation) (h : s.port.input = .one w :: rest) :
    fetch s = some (w, { s with port := { s.port with input := rest } }) := by
  simp [fetch, h]

theorem step_of_fetch_none (s : State) (h : fetch s = none) : step s = .next s.begin := by
  simp [step, h, State.idle]

/-- The operation runs on the state from which its word has been taken. -/
theorem step_of_fetch_instr (s s' : State) (w : CodeWord) (i : Instr) (hf : fetch s = some (w, s'))
    (hd : decode w = .instr i) : step s = exec i s' := by
  simp [step, hf, hd]

theorem step_of_fetch_rejected (s s' : State) (w : CodeWord) (r : Reject) (hf : fetch s = some (w, s'))
    (hd : decode w = .rejected r) : step s = .refused (.spellsNoOperation r) := by
  simp [step, hf, hd]

/-- Settles O50: the fetch of a single presentation, then the step on an instruction. -/
theorem stepRunsDecodedOperation : Obligations.StepRunsDecodedOperation := by
  intro s w rest i hin hd
  exact step_of_fetch_instr s _ w i (fetch_of_input_one s w rest hin) hd

/-- Settles O51: the idle step, and the step on a rejected word. -/
theorem stepIdleOrRefusedWithoutOperation : Obligations.StepIdleOrRefusedWithoutOperation := by
  constructor
  · intro s hin
    exact step_of_fetch_none s (fetch_of_input_nil s hin)
  · intro s w rest r hin hd
    exact step_of_fetch_rejected s _ w r (fetch_of_input_one s w rest hin) hd

/-! ### Completion of the capture operations (40_capture.md R90) -/

/-- A buffer reset gives a legal image, because the items of R23 speak of the cells below EB_CNT only. -/
theorem legalCapture_emptied (c : Capture) : LegalCapture { c with ebCnt := 0 } where
  countInRange := by simp
  written := by simp
  gapsShort := by simp
  firstGapNoRepeat := by simp

/-- In a legal image every stored edge can be read. -/
theorem readCell_of_legal (c : Capture) (i : Nat) (hc : LegalCapture c) (hi : i < c.ebCnt.toNat) :
    ∃ t, readCell c.cells i = .ok t := by
  obtain ⟨t, ht⟩ := hc.written i hi
  have hle := hc.countInRange
  exact ⟨t, (readCell_ok _ _ _).mpr ⟨by omega, ht⟩⟩

/-- Cells that all hold a value can be read together. -/
theorem readCells_of_written (m : Memory) (is : List Nat) (h : ∀ i ∈ is, i < 34 ∧ ∃ t, m.read i = some t) :
    ∃ ts, readCells m is = .ok ts := by
  refine ⟨_, readCells_map m (fun i => (m.read i).getD 0) is (fun i hi => ?_)⟩
  obtain ⟨hlt, t, ht⟩ := h i hi
  simp [hlt, ht]

/-- The stale check of a legal image answers a legal image. -/
theorem staleCheck_of_legal (t : Timestamp) (c : Capture) (hc : LegalCapture c) :
    ∃ c', staleCheck t c = .ok c' ∧ LegalCapture c' := by
  by_cases h0 : c.ebCnt = 0
  · exact ⟨c, if_pos h0, hc⟩
  · obtain ⟨last, hlast⟩ := readCell_of_legal c (c.ebCnt.toNat - 1) hc (by bv_omega)
    refine ⟨if isStaleGap (dt t last) then { c with ebCnt := 0 } else c, ?_, ?_⟩
    · rw [staleCheck, if_neg h0, hlast]
    · split
      · exact legalCapture_emptied c
      · exact hc

/-- The repeat test of a legal image answers. -/
theorem repeatTest_of_legal (t : Timestamp) (c : Capture) (hc : LegalCapture c) : ∃ b, repeatTest t c = .ok b := by
  by_cases h1 : c.ebCnt = 1
  · obtain ⟨first, hfirst⟩ := readCell_of_legal c 0 hc (by simp [h1])
    exact ⟨isRepeatGap (dt t first), by rw [repeatTest, if_pos h1, hfirst]⟩
  · exact ⟨false, if_neg h1⟩

/-- The append to a legal image answers an image whose cells below EB_CNT exist and have been written. -/
theorem appendEdge_of_legal (t : Timestamp) (c : Capture) (hc : LegalCapture c) :
    ∃ c', appendEdge t c = .ok c' ∧ ∀ i, i < c'.ebCnt.toNat → i < 34 ∧ ∃ u, c'.cells.read i = some u := by
  have hle := hc.countInRange
  refine ⟨_, (appendEdge_ok t c _).mpr ⟨by omega, rfl⟩, fun i hi => ?_⟩
  have hi' : i < c.ebCnt.toNat + 1 := by simp only at hi; bv_omega
  refine ⟨by omega, ?_⟩
  by_cases heq : i = c.ebCnt.toNat
  · exact ⟨t, by rw [heq, Memory.read_write_same]⟩
  · obtain ⟨u, hu⟩ := hc.written i (by omega)
    exact ⟨u, by rw [Memory.read_write_other _ _ _ _ heq, hu]⟩

/-- The handoff completes where every cell below EB_CNT exists and has been written. -/
theorem handOff_of_written (m : KeyMap) (s : State)
    (h : ∀ i, i < s.capture.ebCnt.toNat → i < 34 ∧ ∃ u, s.capture.cells.read i = some u) :
    ∃ s', handOff m s = .next s' := by
  by_cases h34 : s.capture.ebCnt = 34
  · have hcells : ∀ i ∈ List.range' 1 33, i < 34 ∧ ∃ u, s.capture.cells.read i = some u := fun i hi => by
      simp only [List.mem_range'_1] at hi
      exact h i (by simp [h34]; omega)
    obtain ⟨ts, hts⟩ := readCells_of_written _ _ hcells
    exact ⟨_, by rw [handOff, if_pos h34, bufferWord, hts]⟩
  · exact ⟨s, if_neg h34⟩

/-- The four steps of EDGE complete in a legal image. -/
theorem edgeSteps_of_legal (m : KeyMap) (t : Timestamp) (s : State) (hc : LegalCapture s.capture) :
    ∃ s', edgeSteps m t s = .next s' := by
  obtain ⟨c, hstale, hc'⟩ := staleCheck_of_legal t s.capture hc
  obtain ⟨b, hrepeat⟩ := repeatTest_of_legal t c hc'
  cases b with
  | true => exact ⟨_, by simp only [edgeSteps, hstale, hrepeat]; rfl⟩
  | false =>
    obtain ⟨c', happend, hwritten⟩ := appendEdge_of_legal t c hc'
    obtain ⟨s', hs'⟩ := handOff_of_written m { s.begin with capture := c' } hwritten
    exact ⟨s', by simp only [edgeSteps, hstale, hrepeat, happend, hs']⟩

/-- EDGE completes in a legal image, whatever the key table. -/
theorem edgeWith_of_legal (m : KeyMap) (t : Timestamp) (s : State) (hc : LegalCapture s.capture) :
    ∃ s', edgeWith m t s = .next s' := by
  rw [edgeWith, onLegalCapture_legal _ _ hc]
  exact edgeSteps_of_legal m t s hc

/-- The restart of a legal buffer completes: its last stored edge can be read, and cell 0 exists. -/
theorem restartBuffer_of_legal (g : Gap) (s : State) (hc : LegalCapture s.capture) :
    ∃ s', restartBuffer g s = .next s' := by
  by_cases h0 : s.capture.ebCnt = 0
  · exact ⟨s.begin, if_pos h0⟩
  · obtain ⟨last, hlast⟩ := readCell_of_legal s.capture (s.capture.ebCnt.toNat - 1) hc (by bv_omega)
    obtain ⟨c, happend, _⟩ := appendEdge_of_legal (last + g) _ (legalCapture_emptied s.capture)
    exact ⟨{ s.begin with capture := c }, by simp only [restartBuffer, if_neg h0, hlast, happend]⟩

/-- SYM_STALE completes in a legal image. -/
theorem execSymStale_of_legal (g : Gap) (s : State) (hc : LegalCapture s.capture) :
    ∃ s', execSymStale g s = .next s' := by
  rw [execSymStale, onLegalCapture_legal _ _ hc]
  exact restartBuffer_of_legal g s hc

/-! ### Completion of the workflow operations (43_workflow.md R150) -/

theorem execPoll_of_live (now : Time4) (s : State) (w : WorkflowState) (h : s.view = .live w) :
    execPoll now s = .next (pollLive w now s.begin) := by
  rw [execPoll, h]

theorem keyEvent_of_live (k : LogicalKey) (s : State) (w : WorkflowState) (h : s.view = .live w) :
    keyEvent k s = .next (applyEvent w (.key k) s.begin) := by
  rw [keyEvent, h]

/-- PREP_DONE completes in every workflow state: Brewing answers it, the others keep their registers. -/
theorem execPrepDone_of_live (s : State) (w : WorkflowState) (h : s.view = .live w) :
    ∃ s', execPrepDone s = .next s' := by
  unfold execPrepDone
  cases w <;> exact ⟨_, by rw [h]⟩

/-- SCHED_CFG completes in every workflow state: Scheduling answers it, the others keep their registers. -/
theorem execSchedCfg_of_live (time : Time4) (valid : Bool) (s : State) (w : WorkflowState) (h : s.view = .live w) :
    ∃ s', execSchedCfg time valid s = .next s' := by
  unfold execSchedCfg
  cases w <;> exact ⟨_, by rw [h]⟩

/-! ### Completion of every instruction -/

/-- Settles O56: the capture rows complete because the stored edges are legal, the workflow rows and keys because the
workflow registers are a live state's, and the other rows in every state. -/
theorem everyInstructionCompletesInGoodStates : Obligations.EveryInstructionCompletesInGoodStates := by
  intro i s hs
  have hc : LegalCapture s.capture := hs.capture.toLegalCapture
  obtain ⟨w, hw⟩ : ∃ w, s.view = .live w := hs.workflow
  cases i with
  | edge t => exact edgeWith_of_legal keymap t s hc
  | symStale g => exact execSymStale_of_legal g s hc
  | poll now => exact ⟨_, execPoll_of_live now s w hw⟩
  | prepDone => exact execPrepDone_of_live s w hw
  | schedCfg time valid => exact execSchedCfg_of_live time valid s w hw
  | nop | mboxTake | validate | reached | reset | decode | repeatCode | resolve | publish | symBit0 | symBit1
  | symBad =>
    exact ⟨_, rfl⟩
  | keyDigit0 | keyDigit1 | keyDigit2 | keyDigit3 | keyDigit4 | keyDigit5 | keyDigit6 | keyDigit7 | keyDigit8
  | keyDigit9 | keyPower | keyMenu | keyTest | keyPlus | keyMinus | keyBack | keyPrevious | keyPlay | keyNext
  | keyClear | keyUnrecognized =>
    exact ⟨_, keyEvent_of_live _ s w hw⟩

end Sys2Proof.Machine
end

section
/-! PROOFS. The family 10_state.md. The invariants of R23 are kept by every row, the images outside them stop by name,
each context writes its own groups only, and what R11 and R13 call meaningless is never observed. -/

namespace Sys2Proof.Machine

open Sys2Proof.Safety

/-! ### Items 1 to 3 of R23 over the capture operations (40_capture.md R90) -/

/-- The last stored edge, where there is one, is at most T_SILENCE before `t`. -/
def LastEdgeRecent (t : Timestamp) (c : Capture) : Prop :=
  ∀ last, c.ebCnt ≠ 0 → c.cells.read (c.ebCnt.toNat - 1) = some last → (dt t last).toNat ≤ 15000

/-- An edge at `t` is no repeat of a buffer with one stored edge. -/
def NoRepeatAt (t : Timestamp) (c : Capture) : Prop :=
  ∀ first, c.ebCnt = 1 → c.cells.read 0 = some first → ¬ (9563 ≤ (dt t first).toNat ∧ (dt t first).toNat ≤ 12937)

/-- A buffer reset erases no cell, so only the canonical form is asked of the memory. -/
theorem captureInv_emptied (c : Capture) (h : c.cells.wf = true) : CaptureInv { c with ebCnt := 0 } :=
  ⟨legalCapture_emptied c, h⟩

/-- The stale check keeps the items, and what it leaves in the buffer is recent. -/
theorem staleCheck_keeps_captureInv (t : Timestamp) (c c' : Capture) (h : staleCheck t c = .ok c')
    (hc : CaptureInv c) : CaptureInv c' ∧ LastEdgeRecent t c' := by
  rcases staleCheck_ok t c c' h with ⟨h0, rfl⟩ | ⟨_, _, last, hlast, ⟨_, rfl⟩ | ⟨hrecent, rfl⟩⟩
  · exact ⟨hc, fun _ hne _ => absurd h0 hne⟩
  · exact ⟨captureInv_emptied c hc.canonical, fun _ hne _ => absurd rfl hne⟩
  · refine ⟨hc, fun last' _ hlast' => ?_⟩
    obtain rfl : last = last' := Option.some.inj (hlast.symm.trans hlast')
    have hnot : ¬ 15000 < (dt t last).toNat := by simp [← isStaleGap_iff, hrecent]
    omega

theorem repeatTest_false_noRepeatAt (t : Timestamp) (c : Capture) (h : repeatTest t c = .ok false) :
    NoRepeatAt t c := by
  intro first h1 hfirst
  rcases repeatTest_ok t c false h with ⟨hne, _⟩ | ⟨_, first', hfirst', hgap⟩
  · exact absurd h1 hne
  · obtain rfl : first = first' := Option.some.inj (hfirst.symm.trans hfirst')
    simp [← isRepeatGap_iff, ← hgap]

/-- The append, short of a full buffer, keeps the items: the one new gap is the one the two checks before it examined. -/
theorem append_keeps_captureInv (t : Timestamp) (c : Capture) (hc : CaptureInv c) (hroom : c.ebCnt.toNat < 33)
    (hlast : LastEdgeRecent t c) (hfirst : NoRepeatAt t c) :
    CaptureInv { cells := c.cells.write c.ebCnt.toNat t, ebCnt := c.ebCnt + 1 } := by
  have hcount : (c.ebCnt + 1).toNat = c.ebCnt.toNat + 1 := by bv_omega
  have hbelow : ∀ i, i < c.ebCnt.toNat → (c.cells.write c.ebCnt.toNat t).read i = c.cells.read i :=
    fun i hi => Memory.read_write_other _ _ _ _ (by omega)
  refine ⟨⟨?_, ?_, ?_, ?_⟩, Memory.wf_write _ _ _ (by omega) hc.canonical⟩
  · simp only [hcount]; omega
  · intro i hi
    simp only [hcount] at hi ⊢
    rcases Nat.lt_succ_iff_lt_or_eq.mp hi with hlt | rfl
    · rw [hbelow i hlt]; exact hc.written i hlt
    · exact ⟨t, Memory.read_write_same _ _ _⟩
  · intro i a b hi ha hb
    simp only [hcount] at hi ha hb
    rw [hbelow i (by omega)] at ha
    by_cases htop : i + 1 = c.ebCnt.toNat
    · rw [htop, Memory.read_write_same] at hb
      obtain rfl := Option.some.inj hb
      exact hlast a (by bv_omega) (by rw [← htop]; exact ha)
    · rw [hbelow (i + 1) (by omega)] at hb
      exact hc.gapsShort i a b (by omega) ha hb
  · intro a b h2 ha hb
    simp only [hcount] at h2 ha hb
    rw [hbelow 0 (by omega)] at ha
    by_cases htop : c.ebCnt.toNat = 1
    · rw [htop, Memory.read_write_same] at hb
      obtain rfl := Option.some.inj hb
      exact hfirst a (by bv_omega) ha
    · rw [hbelow 1 (by omega)] at hb
      exact hc.firstGapNoRepeat a b (by omega) ha hb

/-! ### What the rows of the table can do to the block's groups (R10) -/

/-- What EDGE, its sub-operations but RESOLVE and PUBLISH, and the symbol rows can do: each keeps R23 items 1 to 3,
writes LAST_* only with LAST_VALID 1, the mailbox only with a resolved key, and the workflow registers never. -/
structure InterruptEffect (s t : State) : Prop where
  capture : CaptureInv s.capture → CaptureInv t.capture
  decoder : t.decoder = s.decoder ∨ t.decoder.valid = true
  mailbox : t.mailbox = s.mailbox ∨ ∃ c, t.mailbox = { pressed := true, key := codeOfKey (resolveWith keymap c) }
  workflow : t.workflow = s.workflow

/-- The workflow registers the loop context can leave: those it found, InitialScreen's, or the image of a transition. -/
def WorkflowSuccessor (r r' : WorkflowRegs) : Prop :=
  r' = r ∨ r' = WorkflowRegs.initial ∨ ∃ w e, viewOf r = .live w ∧ r' = imageOf (transition w e).1

/-- What a loop-context operation, RESOLVE or a key row can do: a take at most clears MB_PRESSED, and of the other
registers only the workflow's are written. -/
structure LoopEffect (s t : State) : Prop where
  capture : t.capture = s.capture
  decoder : t.decoder = s.decoder
  mailbox : t.mailbox = s.mailbox ∨ t.mailbox = { s.mailbox with pressed := false }
  workflow : WorkflowSuccessor s.workflow t.workflow

/-- A full frame with a good checksum: its pair is recorded and emitted, and its key published. -/
theorem decodeAndPublish_of_accepted (m : KeyMap) (w : BitVec 32) (s : State) (h : checksumOk w = true) :
    decodeAndPublish m (some w) s =
      (((s.setAcc 0).recordDecode (frameAddress w) (frameCommand w)).emit
        (.frame (frameAddress w) (frameCommand w) .normal)).publishKey (resolveWith m (frameCommand w)) := by
  simp [decodeAndPublish, acceptWord, h, consumeFrame]

/-- A full frame with a bad checksum is dropped. -/
theorem decodeAndPublish_of_dropped (m : KeyMap) (w : BitVec 32) (s : State) (h : checksumOk w = false) :
    decodeAndPublish m (some w) s = (s.setAcc 0).dropFrame .checksumFail := by
  simp [decodeAndPublish, acceptWord, h]

/-- A full frame's decode leaves LAST_* or records an accepted pair. -/
theorem decodeAndPublish_decoder (m : KeyMap) (w : Option (BitVec 32)) (s : State) :
    (decodeAndPublish m w s).decoder = s.decoder ∨ (decodeAndPublish m w s).decoder.valid = true := by
  cases w with
  | none => exact .inl rfl
  | some w =>
    cases hok : checksumOk w with
    | false => exact .inl (by rw [decodeAndPublish_of_dropped m w s hok]; rfl)
    | true => exact .inr (by rw [decodeAndPublish_of_accepted m w s hok]; rfl)

/-- The effect of EDGE, branch by branch of its four steps: a repeat, an append, a full frame. -/
theorem execEdge_effect (t : Timestamp) (s u : State) (h : execEdge t s = .next u) : InterruptEffect s u := by
  obtain ⟨_, hsteps, _⟩ := edgeWith_next keymap t s u h
  obtain ⟨c, hstale, ⟨_, rfl⟩ | ⟨hrep, c', happend, hcase⟩⟩ := edgeSteps_next keymap t s u hsteps
  · have hcap : CaptureInv s.capture → CaptureInv { c with ebCnt := 0 } := fun hc =>
      captureInv_emptied c (staleCheck_keeps_captureInv t _ c hstale hc).1.canonical
    rcases repeatAndPublish_cases keymap { s.begin with capture := c } with ⟨_, heq⟩ | ⟨_, heq⟩ <;> rw [heq]
    · exact ⟨hcap, .inl rfl, .inr ⟨_, rfl⟩, rfl⟩
    · exact ⟨hcap, .inl rfl, .inl rfl, rfl⟩
  · obtain ⟨hlt, rfl⟩ := (appendEdge_ok t c c').mp happend
    rcases hcase with ⟨hne, rfl⟩ | ⟨_, w, _, rfl⟩
    · refine ⟨fun hc => ?_, .inl rfl, .inl rfl, rfl⟩
      obtain ⟨hc', hrecent⟩ := staleCheck_keeps_captureInv t _ c hstale hc
      exact append_keeps_captureInv t c hc' (by bv_omega) hrecent (repeatTest_false_noRepeatAt t c hrep)
    · refine ⟨fun hc => ?_, decodeAndPublish_decoder _ _ _, decodeAndPublish_mailbox _ _ _,
        decodeAndPublish_workflow _ _ _⟩
      rw [State.setCount_capture, decodeAndPublish_capture]
      have hc' := (staleCheck_keeps_captureInv t _ c hstale hc).1
      exact captureInv_emptied _ (Memory.wf_write _ _ _ hlt hc'.canonical)

/-- SYM_STALE leaves the buffer or starts a new one with one edge. -/
theorem execSymStale_effect (g : Gap) (s u : State) (h : execSymStale g s = .next u) : InterruptEffect s u := by
  obtain ⟨_, hrestart, _⟩ := onLegalCapture_next _ _ _ h
  rcases restartBuffer_next g s u hrestart with ⟨_, rfl⟩ | ⟨_, last, _, rfl⟩
  · exact ⟨id, .inl rfl, .inl rfl, rfl⟩
  · refine ⟨fun hc => ?_, .inl rfl, .inl rfl, rfl⟩
    exact append_keeps_captureInv (last + g) _ (captureInv_emptied _ hc.canonical) (by simp)
      (fun _ hne _ => absurd rfl hne) (fun _ h1 _ => absurd h1 (by simp))

theorem execDecode_effect (ncmd cmd naddr addr : Byte) (s u : State)
    (h : execDecode ncmd cmd naddr addr s = .next u) : InterruptEffect s u := by
  obtain rfl := Host.Outcome.next.inj h
  rcases acceptWord_cases (ncmd ++ cmd ++ naddr ++ addr) s.begin with ⟨_, heq⟩ | ⟨_, heq⟩ <;> rw [heq]
  · exact ⟨id, .inr rfl, .inl rfl, rfl⟩
  · exact ⟨id, .inl rfl, .inl rfl, rfl⟩

theorem execRepeatCode_effect (g : Gap) (s u : State) (h : execRepeatCode g s = .next u) : InterruptEffect s u := by
  obtain rfl := Host.Outcome.next.inj h
  rcases emitRepeat_cases s.begin with ⟨_, heq⟩ | ⟨_, heq⟩ <;> rw [heq] <;>
    exact ⟨id, .inl rfl, .inl rfl, rfl⟩

/-- A row that writes the boundary and the model's working fields only. -/
theorem LoopEffect.of_sameBlock {s t : State} (h : SameBlock s t) : LoopEffect s t := by
  obtain ⟨hc, hd, hm, hw⟩ := h
  exact ⟨hc, hd, .inl hm, .inl hw⟩

theorem loopEffect_begin (s : State) : LoopEffect s s.begin := .of_sameBlock ⟨rfl, rfl, rfl, rfl⟩

theorem loopEffect_clearPressed (s : State) : LoopEffect s s.begin.clearPressed :=
  ⟨rfl, rfl, .inr rfl, .inl rfl⟩

/-- A transition of the live state adds its image to what was done before it. -/
theorem LoopEffect.applyEvent {s u : State} (h : LoopEffect s u) (w : WorkflowState) (e : WorkflowEvent)
    (hw : s.view = .live w) : LoopEffect s (applyEvent w e u) where
  capture := by simp [h.capture]
  decoder := by simp [h.decoder]
  mailbox := by simpa using h.mailbox
  workflow := .inr (.inr ⟨w, e, hw, by simp⟩)

/-- In a key-driven state POLL empties the mailbox, and dispatches the key that was pending. -/
theorem pollLive_of_takesKey (w : WorkflowState) (now : Time4) (s : State) (h : w.takesKey = true) :
    pollLive w now s =
      if s.mailbox.pressed then applyEvent w (.key (keyOfCode (takenCode s.mailbox))) s.clearPressed
      else s.clearPressed := by
  rw [pollLive, if_pos h]
  rfl

theorem pollLive_effect (w : WorkflowState) (now : Time4) (s : State) (hw : s.view = .live w) :
    LoopEffect s (pollLive w now s.begin) := by
  by_cases htakes : w.takesKey = true
  · rw [pollLive_of_takesKey w now s.begin htakes]
    split
    · exact (loopEffect_clearPressed s).applyEvent w _ hw
    · exact loopEffect_clearPressed s
  · rw [pollLive, if_neg htakes]
    exact (loopEffect_begin s).applyEvent w _ hw

theorem execPoll_effect (now : Time4) (s u : State) (h : execPoll now s = .next u) : LoopEffect s u := by
  unfold execPoll at h
  split at h
  · next w hw =>
    obtain rfl := Host.Outcome.next.inj h
    exact pollLive_effect w now s hw
  · obtain rfl := Host.Outcome.next.inj h
    exact ⟨rfl, rfl, .inl rfl, .inr (.inl rfl)⟩
  · cases h

theorem execPrepDone_effect (s u : State) (h : execPrepDone s = .next u) : LoopEffect s u := by
  unfold execPrepDone at h
  split at h
  · next c m hw =>
    obtain rfl := Host.Outcome.next.inj h
    exact (loopEffect_clearPressed s).applyEvent _ _ hw
  · obtain rfl := Host.Outcome.next.inj h
    exact loopEffect_begin s
  · obtain rfl := Host.Outcome.next.inj h
    exact loopEffect_begin s
  · cases h

theorem execSchedCfg_effect (time : Time4) (valid : Bool) (s u : State) (h : execSchedCfg time valid s = .next u) :
    LoopEffect s u := by
  unfold execSchedCfg at h
  split at h
  · next c hw =>
    obtain rfl := Host.Outcome.next.inj h
    exact (loopEffect_clearPressed s).applyEvent _ _ hw
  · obtain rfl := Host.Outcome.next.inj h
    exact loopEffect_begin s
  · obtain rfl := Host.Outcome.next.inj h
    exact loopEffect_begin s
  · cases h

theorem keyEvent_effect (k : LogicalKey) (s u : State) (h : keyEvent k s = .next u) : LoopEffect s u := by
  unfold keyEvent at h
  split at h
  · next w hw =>
    obtain rfl := Host.Outcome.next.inj h
    exact (loopEffect_begin s).applyEvent w _ hw
  · obtain rfl := Host.Outcome.next.inj h
    exact loopEffect_begin s
  · cases h

/-- What a row can do when it answers a next state, and the context it does not belong to. -/
inductive RowEffect (i : Instr) (s t : State) : Prop where
  | loop (hi : i.context ≠ some .interrupt) (h : LoopEffect s t)
  | interrupt (hi : i.context ≠ some .loop) (h : InterruptEffect s t)
  | publish (k : LogicalKey) (hi : i = .publish k) (ht : t = s.begin.publishKey k)
  | reset (hi : i = .reset) (ht : t = s.begin.resetRegisters)

/-- Every row of the table has one of these effects. -/
theorem exec_effect (i : Instr) (s t : State) (h : exec i s = .next t) : RowEffect i s t := by
  cases i with
  | edge stamp => exact .interrupt nofun (execEdge_effect stamp s t h)
  | symStale g => exact .interrupt nofun (execSymStale_effect g s t h)
  | decode ncmd cmd naddr addr => exact .interrupt nofun (execDecode_effect ncmd cmd naddr addr s t h)
  | repeatCode g => exact .interrupt nofun (execRepeatCode_effect g s t h)
  | symBad g =>
    obtain rfl := Host.Outcome.next.inj h
    exact .interrupt nofun ⟨fun hc => captureInv_emptied _ hc.canonical, .inl rfl, .inl rfl, rfl⟩
  | symBit0 g | symBit1 g =>
    obtain rfl := Host.Outcome.next.inj h
    exact .interrupt nofun ⟨id, .inl rfl, .inl rfl, rfl⟩
  | publish k => exact .publish k rfl (Host.Outcome.next.inj h).symm
  | reset => exact .reset rfl (Host.Outcome.next.inj h).symm
  | poll now => exact .loop nofun (execPoll_effect now s t h)
  | prepDone => exact .loop nofun (execPrepDone_effect s t h)
  | schedCfg time valid => exact .loop nofun (execSchedCfg_effect time valid s t h)
  | mboxTake =>
    obtain rfl := Host.Outcome.next.inj h
    exact .loop nofun ⟨rfl, rfl, .inr rfl, .inl rfl⟩
  | nop | validate | reached | resolve =>
    obtain rfl := Host.Outcome.next.inj h
    exact .loop nofun (.of_sameBlock ⟨rfl, rfl, rfl, rfl⟩)
  | keyDigit0 | keyDigit1 | keyDigit2 | keyDigit3 | keyDigit4 | keyDigit5 | keyDigit6 | keyDigit7 | keyDigit8
  | keyDigit9 | keyPower | keyMenu | keyTest | keyPlus | keyMinus | keyBack | keyPrevious | keyPlay | keyNext
  | keyClear | keyUnrecognized =>
    exact .loop nofun (keyEvent_effect _ s t h)

/-! ### The invariants of R23 are kept -/

theorem workflowInv_initial : WorkflowInv WorkflowRegs.initial := ⟨.initialScreen, rfl⟩

theorem WorkflowSuccessor.keeps_workflowInv {r r' : WorkflowRegs} (h : WorkflowSuccessor r r') (hr : WorkflowInv r) :
    WorkflowInv r' := by
  rcases h with rfl | rfl | ⟨w, e, hw, rfl⟩
  · exact hr
  · exact workflowInv_initial
  · obtain ⟨hlegal, _⟩ := viewOf_live r w hw
    exact ⟨_, viewOf_imageOf _ (transition_legal w e hlegal)⟩

theorem RowEffect.keeps_captureInv {i : Instr} {s t : State} (h : RowEffect i s t) (hs : CaptureInv s.capture) :
    CaptureInv t.capture := by
  cases h with
  | loop _ h => rw [h.capture]; exact hs
  | interrupt _ h => exact h.capture hs
  | publish k _ ht => subst ht; exact hs
  | reset _ ht => subst ht; exact captureInv_emptied ⟨[], 0⟩ rfl

theorem RowEffect.keeps_workflowInv {i : Instr} {s t : State} (h : RowEffect i s t) (hs : WorkflowInv s.workflow) :
    WorkflowInv t.workflow := by
  cases h with
  | loop _ h => exact h.workflow.keeps_workflowInv hs
  | interrupt _ h => rw [h.workflow]; exact hs
  | publish k _ ht => subst ht; exact hs
  | reset _ ht => subst ht; exact workflowInv_initial

/-- The mailbox after a row: as before, empty, with a resolved key pending, or with PUBLISH's operand pending. -/
theorem RowEffect.mailbox_cases {i : Instr} {s t : State} (h : RowEffect i s t) :
    t.mailbox = s.mailbox ∨ t.mailbox.pressed = false ∨
    (∃ c, t.mailbox = { pressed := true, key := codeOfKey (resolveWith keymap c) }) ∨
    ∃ k, i = .publish k ∧ t.mailbox = { pressed := true, key := codeOfKey k } := by
  cases h with
  | loop _ h => exact h.mailbox.imp_right fun hm => .inl (by rw [hm])
  | interrupt _ h => exact h.mailbox.imp_right fun hm => .inr (.inl hm)
  | publish k hi ht => exact .inr (.inr (.inr ⟨k, hi, by rw [ht]; rfl⟩))
  | reset _ ht => exact .inr (.inl (by rw [ht]; rfl))

theorem exec_keeps_rowInv (i : Instr) (s t : State) (hs : RowInv s) (h : exec i s = .next t) : RowInv t := by
  have heff := exec_effect i s t h
  refine ⟨heff.keeps_captureInv hs.capture, heff.keeps_workflowInv hs.workflow, fun hp => ?_⟩
  rcases heff.mailbox_cases with hm | hm | ⟨c, hm⟩ | ⟨k, _, hm⟩
  · rw [hm] at hp ⊢; exact hs.mailbox hp
  · rw [hm] at hp; cases hp
  · exact ⟨_, by rw [hm]⟩
  · exact ⟨k, by rw [hm]⟩

/-- The fetch takes from what waits at the boundary and changes no register of the block. -/
theorem fetch_sameBlock (s s' : State) (w : CodeWord) (h : fetch s = some (w, s')) : SameBlock s s' := by
  unfold fetch at h
  split at h
  · cases h
  · cases h; exact ⟨rfl, rfl, rfl, rfl⟩
  · split at h <;> cases h <;> exact ⟨rfl, rfl, rfl, rfl⟩

theorem rowInv_of_sameBlock {s t : State} (hs : RowInv s) (h : SameBlock s t) : RowInv t := by
  obtain ⟨hc, _, hm, hw⟩ := h
  exact ⟨hc ▸ hs.capture, hw ▸ hs.workflow, hm ▸ hs.mailbox⟩

/-- A step that answers is idle, or applies the instruction its fetched word decodes to. -/
theorem step_next (s t : State) (h : step s = .next t) :
    t = s.begin ∨ ∃ w s' i, fetch s = some (w, s') ∧ decode w = .instr i ∧ exec i s' = .next t := by
  cases hf : fetch s with
  | none =>
    rw [step_of_fetch_none s hf] at h
    exact .inl (Host.Outcome.next.inj h).symm
  | some p =>
    obtain ⟨w, s'⟩ := p
    cases hd : decode w with
    | instr i => exact .inr ⟨w, s', i, rfl, hd, by rw [← h, step_of_fetch_instr s s' w i hf hd]⟩
    | rejected r => rw [step_of_fetch_rejected s s' w r hf hd] at h; cases h

/-- Settles O53: fetching and idling leave the block's registers, and every row keeps the invariant. -/
theorem stepKeepsInvariant : Obligations.StepKeepsInvariant := by
  intro s t hs h
  rcases step_next s t h with rfl | ⟨w, s', i, hf, _, hexec⟩
  · exact rowInv_of_sameBlock hs ⟨rfl, rfl, rfl, rfl⟩
  · exact exec_keeps_rowInv i s' t (rowInv_of_sameBlock hs (fetch_sameBlock s s' w hf)) hexec

/-- Settles O55: the nine operations publish resolved keys only, which are UNRECOGNIZED or KEYMAP's. -/
theorem operationsKeepBlockInvariant : Obligations.OperationsKeepBlockInvariant := by
  intro i s t hop hs h
  have heff := exec_effect i s t h
  refine ⟨heff.keeps_captureInv hs.capture, heff.keeps_workflowInv hs.workflow, fun hp => ?_⟩
  rcases heff.mailbox_cases with hm | hm | ⟨c, hm⟩ | ⟨k, rfl, _⟩
  · rw [hm] at hp ⊢; exact hs.mailbox hp
  · rw [hm] at hp; cases hp
  · rw [hm]
    exact (resolveWith_mem keymap c).imp (congrArg codeOfKey) fun ⟨e, he, heq⟩ => ⟨e, he, congrArg codeOfKey heq⟩
  · cases hop

/-- Settles O54: no cell is stored, the workflow registers are InitialScreen's, no key is pending. -/
theorem resetMeetsInvariants : Obligations.ResetMeetsInvariants :=
  have hc : CaptureInv State.reset.capture := captureInv_emptied ⟨[], 0⟩ rfl
  ⟨⟨hc, workflowInv_initial, nofun⟩, ⟨hc, workflowInv_initial, nofun⟩⟩

/-- Settles O49. -/
theorem resetStateIsAsSpecified : Obligations.ResetStateIsAsSpecified :=
  ⟨rfl, Memory.read_nil, rfl, rfl, viewOf_imageOf .initialScreen rfl, rfl, rfl, rfl, rfl, rfl, rfl, rfl, rfl⟩

/-! ### The contexts write only their own groups (R10, R13) -/

/-- Settles O42: the effect of a loop-context row, and that of EDGE. -/
theorem contextsWriteOnlyTheirGroups : Obligations.ContextsWriteOnlyTheirGroups := by
  intro i s t h
  constructor
  · intro hi
    cases exec_effect i s t h with
    | loop _ h =>
      refine ⟨h.capture, h.decoder, ?_⟩
      rcases h.mailbox with hm | hm <;> simp [hm]
    | interrupt hne _ => exact absurd hi hne
    | publish k hi' _ => subst hi'; cases hi
    | reset hi' _ => subst hi'; cases hi
  · intro hi
    cases exec_effect i s t h with
    | loop hne _ => exact absurd hi hne
    | interrupt _ h =>
      refine ⟨h.workflow, fun hp => ?_⟩
      rcases h.mailbox with hm | ⟨c, hm⟩ <;> simp [hm, hp]
    | publish k hi' _ => subst hi'; cases hi
    | reset hi' _ => subst hi'; cases hi

/-- Settles O43: a row but RESET leaves LAST_* or records an accepted pair. -/
theorem lastValidClearedOnlyByReset : Obligations.LastValidClearedOnlyByReset := by
  intro i s t hne h hv
  cases exec_effect i s t h with
  | loop _ h => rw [h.decoder]; exact hv
  | interrupt _ h => exact h.decoder.elim (fun hd => by rw [hd]; exact hv) id
  | publish k _ ht => subst ht; exact hv
  | reset hi _ => exact absurd hi hne

/-! ### Images outside R23 stop by name -/

/-- Registers that select a variant with an illegal payload are no workflow state's. -/
theorem viewOf_of_illegal (r : WorkflowRegs) (w : WorkflowState) (hw : selectedState r = some w)
    (h : w.legal = false) : viewOf r = .outsideInvariant := by
  simp [viewOf, hw, h]

/-- Settles O40: the operations and the key rows dispatch on the view, and cups outside 1..5 are no state's. -/
theorem illegalWorkflowImagesRefused : Obligations.IllegalWorkflowImagesRefused := by
  constructor
  · intro s now valid k hv
    refine ⟨?_, ?_, ?_, ?_⟩
    · change execPoll now s = _
      rw [execPoll, hv]
    · change execPrepDone s = _
      rw [execPrepDone, hv]
    · change execSchedCfg now valid s = _
      rw [execSchedCfg, hv]
    · rw [exec_ofKey, keyEvent, hv]
  · intro s hws hcups
    have hsel : selectedState s.workflow = some (.scheduleOrNow s.workflow.cups) := by simp [selectedState, hws]
    refine viewOf_of_illegal s.workflow _ hsel ?_
    rcases hcups with h | h | h <;> (rw [WorkflowState.legal, h]; rfl)

/-- What cell `i` holds, where it has been written. -/
def Memory.stamp (m : Memory) (i : Nat) : Timestamp := (m.read i).getD 0

theorem Memory.read_eq_stamp (m : Memory) (i : Nat) (h : ∃ t, m.read i = some t) : m.read i = some (m.stamp i) := by
  obtain ⟨t, ht⟩ := h
  simp [Memory.stamp, ht]

theorem Memory.stamp_of_read (m : Memory) (i : Nat) (t : Timestamp) (h : m.read i = some t) : m.stamp i = t := by
  simp [Memory.stamp, h]

/-- A list of existing cells, one of them unwritten, cannot be read: the read faults at an unwritten one. -/
theorem readCells_of_unwritten (m : Memory) (is : List Nat) (hlt : ∀ i ∈ is, i < 34) (h : ∃ i ∈ is, m.read i = none) :
    ∃ j ∈ is, m.read j = none ∧ readCells m is = .error (.cellHoldsNoValue j) := by
  induction is with
  | nil => obtain ⟨i, hi, _⟩ := h; cases hi
  | cons i rest ih =>
    have hi : i < 34 := hlt i (by simp)
    cases hr : m.read i with
    | none =>
      exact ⟨i, by simp, hr, by simp only [readCells, readCell, if_neg (Nat.not_le.mpr hi), hr]⟩
    | some t =>
      have hrest : ∃ j ∈ rest, m.read j = none := by
        obtain ⟨j, hj, hnone⟩ := h
        rcases List.mem_cons.mp hj with rfl | hj
        · rw [hr] at hnone; cases hnone
        · exact ⟨j, hj, hnone⟩
      obtain ⟨j, hj, hnone, herr⟩ := ih (fun k hk => hlt k (by simp [hk])) hrest
      exact ⟨j, by simp [hj], hnone, by simp only [readCells, (readCell_ok m i t).mpr ⟨hi, hr⟩, herr]⟩

/-- Item 3 of R23, from the test over the gaps at consecutive indices. -/
theorem gaps_of_legalGaps (f : Nat → Timestamp) (n : Nat)
    (h : legalGaps ((List.range' 0 n).map (fun i => dt (f (i + 1)) (f i))) = true) :
    (∀ i, i < n → (dt (f (i + 1)) (f i)).toNat ≤ 15000) ∧
    (0 < n → ¬ (9563 ≤ (dt (f 1) (f 0)).toNat ∧ (dt (f 1) (f 0)).toNat ≤ 12937)) := by
  cases n with
  | zero => exact ⟨fun i hi => absurd hi (Nat.not_lt_zero i), fun h0 => absurd h0 (Nat.not_lt_zero 0)⟩
  | succ n =>
    rw [List.range'_succ, List.map_cons, legalGaps, ← List.map_cons (f := fun i => dt (f (i + 1)) (f i)),
      ← List.range'_succ, List.all_map, Bool.and_eq_true, List.all_eq_true] at h
    obtain ⟨hfirst, hall⟩ := h
    refine ⟨fun i hi => ?_, fun _ hrep => ?_⟩
    · have hstale := hall i (by simp only [List.mem_range'_1]; omega)
      have hnot : ¬ 15000 < (dt (f (i + 1)) (f i)).toNat := by
        rw [← isStaleGap_iff]; simpa using hstale
      omega
    · rw [(isRepeatGap_iff _).mpr hrep] at hfirst
      cases hfirst

theorem onLegalCapture_of_full (c : Capture) (o : Host.Outcome State Fault Refusal) (h : 34 ≤ c.ebCnt.toNat) :
    onLegalCapture c o = .refused .edgeCountOutOfRange := if_pos h

/-- With a cell below EB_CNT unwritten the stored edges cannot be read. -/
theorem onLegalCapture_of_unwritten (c : Capture) (o : Host.Outcome State Fault Refusal) (hle : c.ebCnt.toNat ≤ 33)
    (h : ∃ j, j < c.ebCnt.toNat ∧ c.cells.read j = none) :
    ∃ j, j < c.ebCnt.toNat ∧ c.cells.read j = none ∧ onLegalCapture c o = .fault (.cellHoldsNoValue j) := by
  have hmem : ∀ j, j ∈ List.range' 0 c.ebCnt.toNat ↔ j < c.ebCnt.toNat := fun j => by
    simp [List.mem_range'_1]
  obtain ⟨i, hi, hnone⟩ := h
  obtain ⟨j, hj, hjnone, herr⟩ := readCells_of_unwritten c.cells (List.range' 0 c.ebCnt.toNat)
    (fun k hk => by rw [hmem] at hk; omega) ⟨i, (hmem i).mpr hi, hnone⟩
  have hroom : ¬ Config.edgeCap ≤ c.ebCnt.toNat := Nat.not_le.mpr (Nat.lt_succ_of_le hle)
  exact ⟨j, (hmem j).mp hj, hjnone, by rw [onLegalCapture, if_neg hroom, herr]⟩

/-- Where the stored edges can be read, their gaps decide. -/
theorem onLegalCapture_of_read (c : Capture) (o : Host.Outcome State Fault Refusal) (ts : List Timestamp)
    (hlt : c.ebCnt.toNat < 34) (hts : readCells c.cells (List.range' 0 c.ebCnt.toNat) = .ok ts) :
    onLegalCapture c o = if legalGaps (gapsOf ts) then o else .refused .captureImageOutsideInvariant := by
  rw [onLegalCapture, if_neg (Nat.not_le.mpr hlt), hts]

/-- Written cells whose gaps pass the test are a legal image. -/
theorem legalCapture_of_legalGaps (c : Capture) (hle : c.ebCnt.toNat ≤ 33)
    (hw : ∀ j, j < c.ebCnt.toNat → ∃ t, c.cells.read j = some t)
    (h : legalGaps (gapsOf ((List.range' 0 c.ebCnt.toNat).map c.cells.stamp)) = true) : LegalCapture c := by
  have hgaps : ∀ n, c.ebCnt.toNat = n + 1 →
      (∀ i, i < n → (dt (c.cells.stamp (i + 1)) (c.cells.stamp i)).toNat ≤ 15000) ∧
      (0 < n → ¬ (9563 ≤ (dt (c.cells.stamp 1) (c.cells.stamp 0)).toNat ∧
        (dt (c.cells.stamp 1) (c.cells.stamp 0)).toNat ≤ 12937)) := fun n hn => by
    rw [hn, gapsOf_map_range'] at h
    exact gaps_of_legalGaps c.cells.stamp n h
  refine ⟨hle, hw, fun i a b hi ha hb => ?_, fun a b h2 ha hb => ?_⟩
  · obtain ⟨hshort, _⟩ := hgaps (c.ebCnt.toNat - 1) (by omega)
    rw [← Memory.stamp_of_read _ _ _ ha, ← Memory.stamp_of_read _ _ _ hb]
    exact hshort i (by omega)
  · obtain ⟨_, hfirst⟩ := hgaps (c.ebCnt.toNat - 1) (by omega)
    rw [← Memory.stamp_of_read _ _ _ ha, ← Memory.stamp_of_read _ _ _ hb]
    exact hfirst (by omega)

/-- With every stored edge written, the image is refused unless it is a legal one. -/
theorem onLegalCapture_of_written (c : Capture) (o : Host.Outcome State Fault Refusal) (hle : c.ebCnt.toNat ≤ 33)
    (hw : ∀ j, j < c.ebCnt.toNat → ∃ t, c.cells.read j = some t) (h : ¬ LegalCapture c) :
    onLegalCapture c o = .refused .captureImageOutsideInvariant := by
  have hcells := readCells_map c.cells c.cells.stamp (List.range' 0 c.ebCnt.toNat) (fun i hi => by
    simp only [List.mem_range'_1] at hi
    exact ⟨by omega, c.cells.read_eq_stamp i (hw i (by omega))⟩)
  rw [onLegalCapture_of_read c o _ (Nat.lt_succ_of_le hle) hcells]
  exact if_neg fun hlegal => h (legalCapture_of_legalGaps c hle hw hlegal)

/-- Settles O13: EDGE and SYM_STALE both examine the stored edges before they do anything. -/
theorem edgesStopInIllegalCaptureImages : Obligations.EdgesStopInIllegalCaptureImages := by
  intro i s hi
  obtain ⟨o, ho⟩ : ∃ o, exec i s = onLegalCapture s.capture o := by
    rcases hi with ⟨t, rfl⟩ | ⟨g, rfl⟩ <;> exact ⟨_, rfl⟩
  rw [ho]
  refine ⟨onLegalCapture_of_full _ o, onLegalCapture_of_unwritten _ o, fun hle hw hbad => ?_⟩
  refine onLegalCapture_of_written _ o hle hw fun hlegal => ?_
  rcases hbad with ⟨j, a, b, hj, ha, hb, hlong⟩ | ⟨a, b, h2, ha, hb, hrep⟩
  · exact absurd (hlegal.gapsShort j a b hj ha hb) (by omega)
  · exact hlegal.firstGapNoRepeat a b h2 ha hb hrep

/-! ### What EDGE never observes (R11, R13) -/

/-- An image in which one edge answers a next state lets every edge do what its steps do. -/
theorem onLegalCapture_of_next (c : Capture) (o o' : Host.Outcome State Fault Refusal) (u : State)
    (h : onLegalCapture c o = .next u) : onLegalCapture c o' = o' := by
  obtain ⟨hlt, _, ts, hts, hlegal⟩ := onLegalCapture_next c o u h
  rw [onLegalCapture_of_read c o' ts hlt hts, if_pos hlegal]

/-- The four steps where the edge is a repeat. -/
theorem edgeSteps_of_repeat (m : KeyMap) (t : Timestamp) (s : State) (c : Capture)
    (hstale : staleCheck t s.capture = .ok c) (hrepeat : repeatTest t c = .ok true) :
    edgeSteps m t s = .next ((repeatAndPublish m { s.begin with capture := c }).setCount 0) := by
  simp only [edgeSteps, hstale, hrepeat]

/-- The four steps where the edge is stored. -/
theorem edgeSteps_of_append (m : KeyMap) (t : Timestamp) (s : State) (c c' : Capture)
    (hstale : staleCheck t s.capture = .ok c) (hrepeat : repeatTest t c = .ok false)
    (happend : appendEdge t c = .ok c') : edgeSteps m t s = handOff m { s.begin with capture := c' } := by
  simp only [edgeSteps, hstale, hrepeat, happend]

theorem handOff_of_short (m : KeyMap) (s : State) (h : s.capture.ebCnt ≠ 34) : handOff m s = .next s := if_neg h

theorem handOff_of_full (m : KeyMap) (s : State) (w : Option (BitVec 32)) (h : s.capture.ebCnt = 34)
    (hw : bufferWord s.capture.cells = .ok w) : handOff m s = .next ((decodeAndPublish m w s).setCount 0) := by
  rw [handOff, if_pos h, hw]

/-! #### Cells at or above EB_CNT -/

/-- Two capture groups agree but for cells at or above EB_CNT. -/
def SameStored (c d : Capture) : Prop :=
  d.ebCnt = c.ebCnt ∧ ∀ i, i < c.ebCnt.toNat → d.cells.read i = c.cells.read i

theorem sameStored_emptied (c d : Capture) : SameStored { c with ebCnt := 0 } { d with ebCnt := 0 } :=
  ⟨rfl, fun i hi => absurd hi (Nat.not_lt_zero i)⟩

theorem readCell_congr (m m' : Memory) (i : Nat) (h : m'.read i = m.read i) : readCell m' i = readCell m i := by
  simp only [readCell, h]

theorem readCells_congr (m m' : Memory) (is : List Nat) (h : ∀ i ∈ is, m'.read i = m.read i) :
    readCells m' is = readCells m is := by
  induction is with
  | nil => rfl
  | cons i rest ih =>
    have hrest := ih fun j hj => h j (List.mem_cons_of_mem i hj)
    simp only [readCells, readCell_congr m m' i (h i List.mem_cons_self), hrest]

theorem SameStored.onLegalCapture {c d : Capture} (h : SameStored c d) (o : Host.Outcome State Fault Refusal) :
    onLegalCapture d o = onLegalCapture c o := by
  obtain ⟨hcnt, hread⟩ := h
  have hcells := readCells_congr c.cells d.cells (List.range' 0 c.ebCnt.toNat) (fun i hi => by
    simp only [List.mem_range'_1] at hi
    exact hread i (by omega))
  simp only [Machine.onLegalCapture, hcnt, hcells]

theorem SameStored.staleCheck {c d c' : Capture} (h : SameStored c d) (t : Timestamp)
    (hc : staleCheck t c = .ok c') : ∃ d', staleCheck t d = .ok d' ∧ SameStored c' d' := by
  obtain ⟨hcnt, hread⟩ := h
  by_cases h0 : c.ebCnt = 0
  · rw [Machine.staleCheck, if_pos h0] at hc
    cases hc
    exact ⟨d, if_pos (hcnt.trans h0), hcnt, hread⟩
  · have hlast := readCell_congr c.cells d.cells (c.ebCnt.toNat - 1) (hread _ (by bv_omega))
    rw [Machine.staleCheck, if_neg h0] at hc
    rw [Machine.staleCheck, hcnt, if_neg h0, hlast]
    cases hr : readCell c.cells (c.ebCnt.toNat - 1) with
    | error f => rw [hr] at hc; cases hc
    | ok last =>
      rw [hr] at hc
      cases hc
      refine ⟨_, rfl, ?_⟩
      split
      · exact sameStored_emptied c d
      · exact ⟨hcnt, hread⟩

theorem SameStored.repeatTest {c d : Capture} (h : SameStored c d) (t : Timestamp) :
    repeatTest t d = repeatTest t c := by
  obtain ⟨hcnt, hread⟩ := h
  by_cases h1 : c.ebCnt = 1
  · have hfirst := readCell_congr c.cells d.cells 0 (hread 0 (by simp [h1]))
    simp only [Machine.repeatTest, hcnt, hfirst]
  · simp only [Machine.repeatTest, hcnt, if_neg h1]

/-- The append writes the first cell that may differ, so the stored cells still agree. -/
theorem SameStored.appendEdge {c d c' : Capture} (h : SameStored c d) (t : Timestamp)
    (hc : appendEdge t c = .ok c') : ∃ d', appendEdge t d = .ok d' ∧ SameStored c' d' := by
  obtain ⟨hcnt, hread⟩ := h
  obtain ⟨hlt, rfl⟩ := (appendEdge_ok t c c').mp hc
  refine ⟨_, (appendEdge_ok t d _).mpr ⟨by rw [hcnt]; exact hlt, rfl⟩, by simp only [hcnt], fun i hi => ?_⟩
  simp only [hcnt]
  by_cases heq : i = c.ebCnt.toNat
  · rw [heq, Memory.read_write_same, Memory.read_write_same]
  · rw [Memory.read_write_other _ _ _ _ heq, Memory.read_write_other _ _ _ _ heq]
    have hcount : (c.ebCnt + 1).toNat = c.ebCnt.toNat + 1 := by bv_omega
    simp only [hcount] at hi
    exact hread i (by omega)

/-- A full buffer spells its word from stored cells only. -/
theorem SameStored.bufferWord {c d : Capture} (h : SameStored c d) (hfull : c.ebCnt = 34) :
    bufferWord d.cells = bufferWord c.cells := by
  obtain ⟨_, hread⟩ := h
  have hcells := readCells_congr c.cells d.cells (List.range' 1 33) (fun i hi => by
    simp only [List.mem_range'_1] at hi
    exact hread i (by simp [hfull]; omega))
  simp only [Machine.bufferWord, hcells]

theorem repeatAndPublish_of_empty (m : KeyMap) (s : State) (h : s.decoder.valid = false) :
    repeatAndPublish m s = s := by
  rcases repeatAndPublish_cases m s with ⟨hv, _⟩ | ⟨_, heq⟩
  · exact absurd (h.symm.trans hv) (by decide)
  · exact heq

theorem repeatAndPublish_of_valid (m : KeyMap) (s : State) (h : s.decoder.valid = true) :
    repeatAndPublish m s =
      (s.emit (.frame s.decoder.addr s.decoder.cmd .repeated)).publishKey (resolveWith m s.decoder.cmd) := by
  rcases repeatAndPublish_cases m s with ⟨_, heq⟩ | ⟨hv, _⟩
  · exact heq
  · exact absurd (h.symm.trans hv) (by decide)

/-- The handling of a repeat neither reads nor writes the capture group. -/
theorem repeatAndPublish_withCapture (m : KeyMap) (s : State) (d : Capture) :
    repeatAndPublish m { s with capture := d } = { repeatAndPublish m s with capture := d } := by
  cases hv : s.decoder.valid with
  | false => rw [repeatAndPublish_of_empty m s hv, repeatAndPublish_of_empty m { s with capture := d } hv]
  | true => rw [repeatAndPublish_of_valid m s hv, repeatAndPublish_of_valid m { s with capture := d } hv]; rfl

/-- The handling of a full frame, its word given, neither reads nor writes the capture group. -/
theorem decodeAndPublish_withCapture (m : KeyMap) (w : Option (BitVec 32)) (s : State) (d : Capture) :
    decodeAndPublish m w { s with capture := d } = { decodeAndPublish m w s with capture := d } := by
  cases w with
  | none => rfl
  | some w =>
    cases hok : checksumOk w with
    | false => rw [decodeAndPublish_of_dropped m w _ hok, decodeAndPublish_of_dropped m w _ hok]; rfl
    | true => rw [decodeAndPublish_of_accepted m w _ hok, decodeAndPublish_of_accepted m w _ hok]; rfl

/-- The four steps run alike from stored cells that agree. -/
theorem SameStored.edgeSteps {s u : State} {d : Capture} (h : SameStored s.capture d) (m : KeyMap) (t : Timestamp)
    (hs : edgeSteps m t s = .next u) :
    ∃ d', edgeSteps m t { s with capture := d } = .next { u with capture := d' } ∧ SameStored u.capture d' := by
  obtain ⟨c, hstale, hcase⟩ := edgeSteps_next m t s u hs
  obtain ⟨e, hstale', he⟩ := h.staleCheck t hstale
  rcases hcase with ⟨hrepeat, rfl⟩ | ⟨hrepeat, c', happend, hcase⟩
  · refine ⟨{ e with ebCnt := 0 }, ?_, ?_⟩
    · rw [edgeSteps_of_repeat m t _ e hstale' ((he.repeatTest t).trans hrepeat)]
      exact congrArg (fun v => Host.Outcome.next (v.setCount 0))
        (repeatAndPublish_withCapture m { s.begin with capture := c } e)
    · exact sameStored_emptied _ e
  · obtain ⟨e', happend', he'⟩ := he.appendEdge t happend
    rw [edgeSteps_of_append m t _ e e' hstale' ((he.repeatTest t).trans hrepeat) happend']
    rcases hcase with ⟨hshort, rfl⟩ | ⟨hfull, w, hw, rfl⟩
    · exact ⟨e', handOff_of_short m _ (by rw [show _ = c'.ebCnt from he'.1]; exact hshort), he'⟩
    · refine ⟨{ e' with ebCnt := 0 }, ?_, sameStored_emptied _ e'⟩
      rw [handOff_of_full m _ w (he'.1.trans hfull) ((he'.bufferWord hfull).trans hw)]
      exact congrArg (fun v => Host.Outcome.next (v.setCount 0))
        (decodeAndPublish_withCapture m w { s.begin with capture := c' } e')

/-- Settles O14: the image's test and the four steps read stored cells only. -/
theorem cellsBeyondCountUnobservable : Obligations.CellsBeyondCountUnobservable := by
  intro s u m t hm h
  have hsame : SameStored s.capture { s.capture with cells := m } := ⟨rfl, hm⟩
  obtain ⟨_, hsteps, _⟩ := edgeWith_next keymap t s u h
  obtain ⟨d, hsteps', hcnt, hread⟩ := hsame.edgeSteps keymap t hsteps
  refine ⟨{ u with capture := d }, ?_, hcnt, rfl, rfl, rfl, rfl, rfl, hread⟩
  calc exec (.edge t) { s with capture := { s.capture with cells := m } }
      = onLegalCapture s.capture (edgeSteps keymap t { s with capture := { s.capture with cells := m } }) :=
        hsame.onLegalCapture _
    _ = edgeSteps keymap t { s with capture := { s.capture with cells := m } } := onLegalCapture_of_next _ _ _ u h
    _ = .next { u with capture := d } := hsteps'

/-! #### LAST_ADDR and LAST_CMD with LAST_VALID 0 -/

/-- `v`, run from `s` with LAST_* replaced by `d`, shows what `u`, run from `s`, shows: LAST_* is left in both or
written alike in both. -/
def LastUnobserved (s u v : State) (d : LastDecode) : Prop :=
  (u.decoder = s.decoder ∧ v = { u with decoder := d }) ∨ v = u

theorem decodeAndPublish_withDecoder (m : KeyMap) (w : Option (BitVec 32)) (s : State) (d : LastDecode) :
    LastUnobserved s (decodeAndPublish m w s) (decodeAndPublish m w { s with decoder := d }) d := by
  cases w with
  | none => exact .inl ⟨rfl, rfl⟩
  | some w =>
    cases hok : checksumOk w with
    | false =>
      rw [decodeAndPublish_of_dropped m w _ hok, decodeAndPublish_of_dropped m w _ hok]
      exact .inl ⟨rfl, rfl⟩
    | true =>
      rw [decodeAndPublish_of_accepted m w _ hok, decodeAndPublish_of_accepted m w _ hok]
      exact .inr rfl

theorem LastUnobserved.setCount {s u v : State} {d : LastDecode} (h : LastUnobserved s u v d) (n : BitVec 6) :
    LastUnobserved s (u.setCount n) (v.setCount n) d := by
  rcases h with ⟨hu, rfl⟩ | rfl
  · exact .inl ⟨hu, rfl⟩
  · exact .inr rfl

/-- The first three steps read no LAST_* register, a repeat with LAST_VALID 0 does nothing, and a decode only writes
them. -/
theorem edgeSteps_withDecoder (m : KeyMap) (t : Timestamp) (s u : State) (d : LastDecode)
    (hs : s.decoder.valid = false) (hd : d.valid = false) (h : edgeSteps m t s = .next u) :
    ∃ v, edgeSteps m t { s with decoder := d } = .next v ∧ LastUnobserved s u v d := by
  obtain ⟨c, hstale, ⟨hrepeat, rfl⟩ | ⟨hrepeat, c', happend, hcase⟩⟩ := edgeSteps_next m t s u h
  · refine ⟨_, edgeSteps_of_repeat m t { s with decoder := d } c hstale hrepeat, LastUnobserved.setCount ?_ 0⟩
    rw [repeatAndPublish_of_empty m _ (by exact hs), repeatAndPublish_of_empty m _ (by exact hd)]
    exact .inl ⟨rfl, rfl⟩
  · rw [edgeSteps_of_append m t { s with decoder := d } c c' hstale hrepeat happend]
    rcases hcase with ⟨hshort, rfl⟩ | ⟨hfull, w, hw, rfl⟩
    · exact ⟨_, handOff_of_short m _ hshort, .inl ⟨rfl, rfl⟩⟩
    · exact ⟨_, handOff_of_full m _ w hfull hw,
        (decodeAndPublish_withDecoder m w { s.begin with capture := c' } d).setCount 0⟩

/-- Settles O15: the image's test reads the capture group only, and the four steps do not observe LAST_*. -/
theorem emptyLastDecodeUnobservable : Obligations.EmptyLastDecodeUnobservable := by
  intro s u d t hs hd h
  obtain ⟨_, hsteps, _⟩ := edgeWith_next keymap t s u h
  obtain ⟨v, hv, hlast⟩ := edgeSteps_withDecoder keymap t s u d hs hd hsteps
  refine ⟨v, (onLegalCapture_of_next s.capture _ _ u h).trans hv, ?_⟩
  rcases hlast with ⟨hu, rfl⟩ | rfl
  · exact ⟨rfl, rfl, rfl, rfl, rfl, .inl ⟨hu, rfl⟩⟩
  · exact ⟨rfl, rfl, rfl, rfl, rfl, .inr rfl⟩

end Sys2Proof.Machine
end

section
/-! PROOFS. The family 20_memory.md. An edge writes one cell and leaves the workflow and what waits at the boundary
(R42, R46), and the mailbox and simultaneous operations keep the one order they are applied in (R50, R208). -/

namespace Sys2Proof.Machine

/-! ### The mailbox hands over the last key published (R50) -/

/-- MBOX_TAKE answers what the mailbox holds and clears MB_PRESSED. -/
theorem exec_mboxTake (s : State) :
    exec .mboxTake s =
      .next (s.begin.clearPressed.answer (.taken s.mailbox.pressed (takenCode s.mailbox))) := rfl

/-- Settles O28: the second publish overwrites the first, and a take leaves MB_KEY. -/
theorem takeSeesLastPublishedKeyOnce : Obligations.TakeSeesLastPublishedKeyOnce := by
  intro s k1 k2
  have hcode (pressed : Bool) : takenCode { pressed := pressed, key := codeOfKey k2 } = codeOfKey k2 :=
    takenCode_codeOfKey _ k2 rfl
  refine ⟨s.begin.publishKey k1, _, _, _, rfl, rfl, exec_mboxTake _, ?_, exec_mboxTake _, ?_⟩
  · simp [hcode]
  · simp [hcode]

/-! ### What EDGE leaves at the boundary (R46) -/

/-- The input, the result and the free counter are the same in both states. -/
structure SameBoundary (s t : State) : Prop where
  input : t.port.input = s.port.input
  result : t.port.result = s.port.result
  free : t.work.free = s.work.free

theorem repeatAndPublish_sameBoundary (m : KeyMap) (s : State) : SameBoundary s (repeatAndPublish m s) := by
  rcases repeatAndPublish_cases m s with ⟨_, heq⟩ | ⟨_, heq⟩ <;> rw [heq] <;> exact ⟨rfl, rfl, rfl⟩

theorem decodeAndPublish_sameBoundary (m : KeyMap) (w : Option (BitVec 32)) (s : State) :
    SameBoundary s (decodeAndPublish m w s) := by
  cases w with
  | none => exact ⟨rfl, rfl, rfl⟩
  | some w =>
    cases hok : checksumOk w with
    | false => rw [decodeAndPublish_of_dropped m w s hok]; exact ⟨rfl, rfl, rfl⟩
    | true => rw [decodeAndPublish_of_accepted m w s hok]; exact ⟨rfl, rfl, rfl⟩

/-- In each branch of its four steps EDGE adds to the boundary only the events and the label of what it does. -/
theorem execEdge_sameBoundary (t : Timestamp) (s u : State) (h : execEdge t s = .next u) :
    SameBoundary s.begin u := by
  obtain ⟨_, hsteps, _⟩ := edgeWith_next keymap t s u h
  obtain ⟨c, _, ⟨_, rfl⟩ | ⟨_, c', _, ⟨_, rfl⟩ | ⟨_, w, _, rfl⟩⟩⟩ := edgeSteps_next keymap t s u hsteps
  · have hrep := repeatAndPublish_sameBoundary keymap { s.begin with capture := c }
    exact ⟨hrep.input, hrep.result, hrep.free⟩
  · exact ⟨rfl, rfl, rfl⟩
  · have hdec := decodeAndPublish_sameBoundary keymap w { s.begin with capture := c' }
    exact ⟨hdec.input, hdec.result, hdec.free⟩

/-! ### What EDGE leaves in the cells (R42) -/

/-- The stale check erases no cell. -/
theorem staleCheck_cells (t : Timestamp) (c c' : Capture) (h : staleCheck t c = .ok c') : c'.cells = c.cells := by
  rcases staleCheck_ok t c c' h with ⟨_, rfl⟩ | ⟨_, _, _, _, ⟨_, rfl⟩ | ⟨_, rfl⟩⟩ <;> rfl

theorem repeatAndPublish_capture (m : KeyMap) (s : State) : (repeatAndPublish m s).capture = s.capture := by
  rcases repeatAndPublish_cases m s with ⟨_, heq⟩ | ⟨_, heq⟩ <;> simp [heq]

/-- A repeat writes no cell; any other edge writes the one cell at the count the stale check left. -/
theorem execEdge_cells (t : Timestamp) (s u : State) (c : Capture) (h : execEdge t s = .next u)
    (hc : staleCheck t s.capture = .ok c) :
    (repeatTest t c = .ok true ∧ u.capture.cells = s.capture.cells) ∨
    (repeatTest t c = .ok false ∧ u.capture.cells = s.capture.cells.write c.ebCnt.toNat t) := by
  obtain ⟨_, hsteps, _⟩ := edgeWith_next keymap t s u h
  obtain ⟨c₁, hstale, hcase⟩ := edgeSteps_next keymap t s u hsteps
  obtain rfl : c = c₁ := Except.ok.inj (hc.symm.trans hstale)
  rw [← staleCheck_cells t _ c hc]
  rcases hcase with ⟨hrep, rfl⟩ | ⟨hrep, c', happend, hcase⟩
  · exact .inl ⟨hrep, by rw [State.setCount_capture, repeatAndPublish_capture]⟩
  · obtain ⟨_, rfl⟩ := (appendEdge_ok t c c').mp happend
    refine .inr ⟨hrep, ?_⟩
    rcases hcase with ⟨_, rfl⟩ | ⟨_, w, _, rfl⟩
    · rfl
    · rw [State.setCount_capture, decodeAndPublish_capture]

/-- Settles O12: EDGE's effect on the block's registers, on the boundary, and on the cells. -/
theorem edgeFrameConditions : Obligations.EdgeFrameConditions := by
  intro s u t h
  have heff := execEdge_effect t s u h
  have hbound := execEdge_sameBoundary t s u h
  refine ⟨heff.workflow, hbound.input, hbound.result, hbound.free, fun c hc => ?_, heff.decoder, ?_⟩
  · rcases execEdge_cells t s u c h hc with ⟨_, hcells⟩ | ⟨hrep, hcells⟩
    · exact ⟨fun i _ => by rw [hcells], fun _ i => by rw [hcells]⟩
    · refine ⟨fun i hi => by rw [hcells, Memory.read_write_other _ _ _ _ hi], fun hrep' => ?_⟩
      rw [hrep] at hrep'
      cases hrep'
  · exact heff.mailbox.imp_right fun ⟨cmd, hm⟩ => ⟨resolveWith keymap cmd, hm⟩

/-! ### What waits is taken by the fetch only (R45) -/

theorem pollLive_input (w : WorkflowState) (now : Time4) (s : State) :
    (pollLive w now s).port.input = s.port.input := by
  by_cases htakes : w.takesKey = true
  · rw [pollLive_of_takesKey w now s htakes]
    split <;> simp
  · simp [pollLive, htakes]

/-! The branches of a loop row differ in the transition they make, and `applyEvent` adds to the events only. -/

theorem execPoll_input (now : Time4) (s u : State) (h : execPoll now s = .next u) :
    u.port.input = s.port.input := by
  unfold execPoll at h
  split at h <;> cases h <;> simp [pollLive_input]

theorem execPrepDone_input (s u : State) (h : execPrepDone s = .next u) : u.port.input = s.port.input := by
  unfold execPrepDone at h
  split at h <;> cases h <;> simp

theorem execSchedCfg_input (time : Time4) (valid : Bool) (s u : State) (h : execSchedCfg time valid s = .next u) :
    u.port.input = s.port.input := by
  unfold execSchedCfg at h
  split at h <;> cases h <;> simp

theorem keyEvent_input (k : LogicalKey) (s u : State) (h : keyEvent k s = .next u) :
    u.port.input = s.port.input := by
  unfold keyEvent at h
  split at h <;> cases h <;> simp

theorem execSymStale_input (g : Gap) (s u : State) (h : execSymStale g s = .next u) :
    u.port.input = s.port.input := by
  obtain ⟨_, hrestart, _⟩ := onLegalCapture_next _ _ _ h
  rcases restartBuffer_next g s u hrestart with ⟨_, rfl⟩ | ⟨_, _, _, rfl⟩ <;> rfl

theorem execDecode_input (ncmd cmd naddr addr : Byte) (s u : State)
    (h : execDecode ncmd cmd naddr addr s = .next u) : u.port.input = s.port.input := by
  obtain rfl := Host.Outcome.next.inj h
  rcases acceptWord_cases (ncmd ++ cmd ++ naddr ++ addr) s.begin with ⟨_, heq⟩ | ⟨_, heq⟩ <;> rw [heq] <;> rfl

theorem execRepeatCode_input (g : Gap) (s u : State) (h : execRepeatCode g s = .next u) :
    u.port.input = s.port.input := by
  obtain rfl := Host.Outcome.next.inj h
  rcases emitRepeat_cases s.begin with ⟨_, heq⟩ | ⟨_, heq⟩ <;> rw [heq] <;> rfl

/-- No row, RESET included, takes or adds a presentation. -/
theorem exec_input (i : Instr) (s u : State) (h : exec i s = .next u) : u.port.input = s.port.input := by
  cases i with
  | edge t => exact (execEdge_sameBoundary t s u h).input
  | symStale g => exact execSymStale_input g s u h
  | decode ncmd cmd naddr addr => exact execDecode_input ncmd cmd naddr addr s u h
  | repeatCode g => exact execRepeatCode_input g s u h
  | poll now => exact execPoll_input now s u h
  | prepDone => exact execPrepDone_input s u h
  | schedCfg time valid => exact execSchedCfg_input time valid s u h
  | nop | mboxTake | validate | reached | reset | resolve | publish | symBit0 | symBit1 | symBad =>
    obtain rfl := Host.Outcome.next.inj h
    rfl
  | keyDigit0 | keyDigit1 | keyDigit2 | keyDigit3 | keyDigit4 | keyDigit5 | keyDigit6 | keyDigit7 | keyDigit8
  | keyDigit9 | keyPower | keyMenu | keyTest | keyPlus | keyMinus | keyBack | keyPrevious | keyPlay | keyNext
  | keyClear | keyUnrecognized =>
    exact keyEvent_input _ s u h

/-! ### Simultaneous operations (R50, R208) -/

/-- Of a pair one word is applied next, and the other then waits alone. -/
theorem fetch_of_input_both (s : State) (e l : CodeWord) (rest : List Presentation)
    (h : s.port.input = .both e l :: rest) :
    fetch s = some (e, { s with port := { s.port with input := .one l :: rest },
                                work := { s.work with free := s.work.free + 1 } }) ∨
    fetch s = some (l, { s with port := { s.port with input := .one e :: rest },
                                work := { s.work with free := s.work.free + 1 } }) := by
  cases hfirst : Config.edgeFirst s.work.free with
  | true => exact .inl (by simp [fetch, h, hfirst])
  | false => exact .inr (by simp [fetch, h, hfirst])

/-- The operation fetched runs whole, and the word that waited behind it is the next step's. -/
theorem step_step_of_fetch (s s' : State) (w v : CodeWord) (rest : List Presentation) (i j : Instr)
    (hf : fetch s = some (w, s')) (hwaits : s'.port.input = .one v :: rest) (hi : decode w = .instr i)
    (hj : decode v = .instr j) :
    step s = exec i s' ∧ ∀ u, step s = .next u → step u = exec j { u with port := { u.port with input := rest } } := by
  have hstep : step s = exec i s' := step_of_fetch_instr s s' w i hf hi
  refine ⟨hstep, fun u hu => ?_⟩
  have hinput : u.port.input = .one v :: rest := (exec_input i s' u (hstep.symm.trans hu)).trans hwaits
  exact stepRunsDecodedOperation u v rest j hinput hj

/-- Settles O52: by which word of the pair the fetch takes first. -/
theorem simultaneousOperationsTakeSomeOrder : Obligations.SimultaneousOperationsTakeSomeOrder := by
  intro s e l rest i j hin hi hj
  rcases fetch_of_input_both s e l rest hin with hf | hf
  · exact .inl (step_step_of_fetch s _ e l rest i j hf rfl hi hj)
  · exact .inr (step_step_of_fetch s _ l e rest j i hf rfl hj hi)

end Sys2Proof.Machine
end

section
/-! PROOFS. The family 30_encoding.md. Decoder and encoder are inverse to each other on every form in which a word is
presented (R60 to R74), and what the symbols, frame words and command bytes spell is what the rows do with them. -/

namespace Sys2Proof

/-! ### Gaps (R61, R62) -/

/-- The gap after `t` of the edge `g` later, also where the timestamp wraps. -/
theorem dt_add_left (t : Timestamp) (g : Gap) : dt (t + g) t = g := by
  rw [dt, BitVec.add_comm, BitVec.add_sub_cancel]

/-- The exact tolerance as bounds on the gap, with no distance and no fraction. -/
theorem withinTolerance_iff (T : Nat) (g : Gap) :
    withinTolerance T g = true ↔ 85 * T ≤ 100 * g.toNat ∧ 100 * g.toNat ≤ 115 * T := by
  simp only [withinTolerance, Config.tolPercent, decide_eq_true_eq]
  split <;> omega

theorem isBit0_eq_withinTolerance (g : Gap) : isBit0 g = withinTolerance 1125 g := by
  rw [Bool.eq_iff_iff, isBit0_iff, withinTolerance_iff]
  omega

theorem isBit1_eq_withinTolerance (g : Gap) : isBit1 g = withinTolerance 2250 g := by
  rw [Bool.eq_iff_iff, isBit1_iff, withinTolerance_iff]
  omega

theorem isRepeatGap_eq_withinTolerance (g : Gap) : isRepeatGap g = withinTolerance 11250 g := by
  rw [Bool.eq_iff_iff, isRepeatGap_iff, withinTolerance_iff]
  omega

/-- Settles O4: no integer gap lies between a window's end and the exact bound, nor on the bound. -/
theorem toleranceWindowsAreExact : Obligations.ToleranceWindowsAreExact := by
  intro g
  refine ⟨isBit0_iff g, isBit0_eq_withinTolerance g, isBit1_iff g, isBit1_eq_withinTolerance g, isRepeatGap_iff g,
    isRepeatGap_eq_withinTolerance g, ?_⟩
  rw [isBit0_iff, isBit1_iff, isRepeatGap_iff]
  omega

/-! The window tests are made in the order stale, 0, 1; the windows are disjoint, so the order does not matter. -/

theorem decodeDataGap_of_stale (g : Gap) (h : beyondSilence g = true) : decodeDataGap g = .symStale g := if_pos h

theorem decodeDataGap_of_bit0 (g : Gap) (h : withinTolerance 1125 g = true) : decodeDataGap g = .symBit0 g := by
  rw [← isBit0_eq_withinTolerance] at h
  have hstale : ¬ isStaleGap g = true := by
    rw [isStaleGap_iff]
    have := (isBit0_iff g).mp h
    omega
  rw [decodeDataGap, if_neg hstale, if_pos h]

theorem decodeDataGap_of_bit1 (g : Gap) (h : withinTolerance 2250 g = true) : decodeDataGap g = .symBit1 g := by
  rw [← isBit1_eq_withinTolerance] at h
  have hwindow := (isBit1_iff g).mp h
  have hstale : ¬ isStaleGap g = true := by
    rw [isStaleGap_iff]
    omega
  have hbit0 : ¬ isBit0 g = true := by
    rw [isBit0_iff]
    omega
  rw [decodeDataGap, if_neg hstale, if_neg hbit0, if_pos h]

theorem decodeDataGap_of_bad (g : Gap) (h0 : withinTolerance 1125 g = false) (h1 : withinTolerance 2250 g = false)
    (hs : beyondSilence g = false) : decodeDataGap g = .symBad g := by
  have hstale : isStaleGap g = false := hs
  rw [decodeDataGap, isBit0_eq_withinTolerance, isBit1_eq_withinTolerance, hstale, h0, h1]
  rfl

/-- The symbol read from a gap admits the gap and is spelled by it. -/
theorem decodeDataGap_encodes (g : Gap) : (decodeDataGap g).wf = true ∧ encode (decodeDataGap g) = .dataGap g := by
  cases hs : beyondSilence g with
  | true => rw [decodeDataGap_of_stale g hs]; exact ⟨hs, rfl⟩
  | false =>
    cases h0 : withinTolerance 1125 g with
    | true => rw [decodeDataGap_of_bit0 g h0]; exact ⟨h0, rfl⟩
    | false =>
      cases h1 : withinTolerance 2250 g with
      | true => rw [decodeDataGap_of_bit1 g h1]; exact ⟨h1, rfl⟩
      | false =>
        rw [decodeDataGap_of_bad g h0 h1 hs]
        exact ⟨by simp [Instr.wf, h0, h1, hs], rfl⟩

/-- A gap after cell 0 spells REPEAT where it is in the tolerance, and nothing else. -/
theorem decode_firstGap_instr (g : Gap) (i : Instr) :
    decode (.firstGap g) = .instr i ↔ withinTolerance 11250 g = true ∧ i = .repeatCode g := by
  rw [decode, isRepeatGap_eq_withinTolerance]
  cases withinTolerance 11250 g <;> simp [eq_comm]

/-! ### Key codes (R67) -/

theorem ofKey_wf (k : LogicalKey) : (Instr.ofKey k).wf = true := by cases k <;> rfl

/-- A key code in the interrupt context spells the publication of the key it names. -/
theorem decode_publishedKey (k : LogicalKey) : decode (.key .interrupt (codeOfKey k)) = .instr (.publish k) := by
  rw [decode, namedKey_codeOfKey]

/-- A key code in the loop context spells the row of the key it names. -/
theorem decode_takenKey (k : LogicalKey) : decode (.key .loop (codeOfKey k)) = .instr (Instr.ofKey k) := by
  rw [decode, namedKey_codeOfKey]

theorem decode_key_encodes (ctx : Context) (code : BitVec 5) (i : Instr) (h : decode (.key ctx code) = .instr i) :
    i.wf = true ∧ encode i = .key ctx code := by
  cases hk : namedKey? code with
  | none => simp [decode, hk] at h
  | some k =>
    obtain rfl := codeOfKey_of_named code k hk
    cases ctx with
    | interrupt =>
      obtain rfl := Decoded.instr.inj ((decode_publishedKey k).symm.trans h)
      exact ⟨rfl, rfl⟩
    | loop =>
      obtain rfl := Decoded.instr.inj ((decode_takenKey k).symm.trans h)
      exact ⟨ofKey_wf k, encode_ofKey k⟩

/-! ### Operation words (R71 to R74) -/

/-- The rows of the table of R72, the last one for the codes R74 leaves unassigned. -/
theorem opc_cases (o : BitVec 8) :
    o = 0x00 ∨ o = 0x01 ∨ o = 0x02 ∨ o = 0x03 ∨ o = 0x04 ∨ o = 0x05 ∨ o = 0x06 ∨ o = 0x07 ∨ o = 0xFF ∨
      (8 ≤ o.toNat ∧ o.toNat ≤ 254) := by
  bv_omega

theorem decodeOp_nop (a b : BitVec 32) :
    decodeOp (opWord 0x00 a b) = ifZero (decide (a = 0) && decide (b = 0)) .nop := by simp [decodeOp]

theorem decodeOp_edge (a b : BitVec 32) : decodeOp (opWord 0x01 a b) = ifZero (decide (a = 0)) (.edge b) := by
  simp [decodeOp]

theorem decodeOp_poll (a b : BitVec 32) :
    decodeOp (opWord 0x02 a b) = ifZero (decide (a = 0)) (.poll (unpackTime b)) := by simp [decodeOp]

theorem decodeOp_prepDone (a b : BitVec 32) :
    decodeOp (opWord 0x03 a b) = ifZero (decide (a = 0) && decide (b = 0)) .prepDone := by simp [decodeOp]

theorem decodeOp_schedCfg (a b : BitVec 32) :
    decodeOp (opWord 0x04 a b) =
      ifZero (decide (b.extractLsb' 1 31 = 0)) (.schedCfg (unpackTime a) (b.getLsbD 0)) := by simp [decodeOp]

theorem decodeOp_mboxTake (a b : BitVec 32) :
    decodeOp (opWord 0x05 a b) = ifZero (decide (a = 0) && decide (b = 0)) .mboxTake := by simp [decodeOp]

theorem decodeOp_validate (a b : BitVec 32) :
    decodeOp (opWord 0x06 a b) = .instr (.validate (unpackTime a) (unpackTime b)) := by simp [decodeOp]

theorem decodeOp_reached (a b : BitVec 32) :
    decodeOp (opWord 0x07 a b) = .instr (.reached (unpackTime a) (unpackTime b)) := by simp [decodeOp]

theorem decodeOp_reset (a b : BitVec 32) :
    decodeOp (opWord 0xFF a b) = ifZero (decide (a = 0) && decide (b = 0)) .reset := by simp [decodeOp]

theorem decodeOp_unassigned (o : BitVec 8) (a b : BitVec 32) (hlo : 8 ≤ o.toNat) (hhi : o.toNat ≤ 254) :
    decodeOp (opWord o a b) = .rejected .unassignedOpcode := by
  have hne (c : BitVec 8) (hc : c.toNat < 8 ∨ 254 < c.toNat) : o ≠ c := by
    rintro rfl
    omega
  simp [decodeOp, hne]

theorem ifZero_fields_instr (a b : BitVec 32) (i j : Instr)
    (h : ifZero (decide (a = 0) && decide (b = 0)) i = .instr j) : a = 0 ∧ b = 0 ∧ i = j := by
  simpa [and_assoc] using (ifZero_instr _ i j).mp h

theorem ifZero_field_instr (a : BitVec 32) (i j : Instr) (h : ifZero (decide (a = 0)) i = .instr j) :
    a = 0 ∧ i = j := by
  simpa using (ifZero_instr _ i j).mp h

theorem ifZero_fields_rejected (a b : BitVec 32) (i : Instr) (h : a ≠ 0 ∨ b ≠ 0) :
    ifZero (decide (a = 0) && decide (b = 0)) i = .rejected .mustBeZero := by
  have hz : (decide (a = 0) && decide (b = 0)) = false := by simpa [imp_iff_not_or] using h
  exact (ifZero_rejected _ i _).mpr ⟨hz, rfl⟩

theorem ifZero_field_rejected {n : Nat} (a : BitVec n) (i : Instr) (h : a ≠ 0) :
    ifZero (decide (a = 0)) i = .rejected .mustBeZero :=
  (ifZero_rejected _ i _).mpr ⟨decide_eq_false h, rfl⟩

/-- The 31 must-be-zero bits of SCHED_CFG leave the flag of bit 0. -/
theorem upperBits_eq_zero_iff (b : BitVec 32) : b.extractLsb' 1 31 = 0 ↔ b = 0 ∨ b = 1 := by
  rw [← BitVec.toNat_inj, BitVec.extractLsb'_toNat, Nat.shiftRight_eq_div_pow]
  bv_omega

theorem flagWord_of_upperBits (b : BitVec 32) (h : b.extractLsb' 1 31 = 0) :
    (if b.getLsbD 0 then 1 else 0 : BitVec 32) = b := by
  rcases (upperBits_eq_zero_iff b).mp h with rfl | rfl <;> rfl

theorem decodeOp_schedCfg_flag (a : BitVec 32) (valid : Bool) :
    decodeOp (opWord 0x04 a (if valid then 1 else 0)) = .instr (.schedCfg (unpackTime a) valid) := by
  rw [decodeOp_schedCfg]
  cases valid <;> rfl

/-- Settles O5: the must-be-zero rows of the table, and the codes outside it. -/
theorem unassignedWordsSpellNothing : Obligations.UnassignedWordsSpellNothing := by
  intro o a b
  refine ⟨decodeOp_unassigned o a b, ?_, ?_, ?_⟩
  · rintro (rfl | rfl | rfl | rfl) hab
    · exact (decodeOp_nop a b).trans (ifZero_fields_rejected a b _ hab)
    · exact (decodeOp_prepDone a b).trans (ifZero_fields_rejected a b _ hab)
    · exact (decodeOp_mboxTake a b).trans (ifZero_fields_rejected a b _ hab)
    · exact (decodeOp_reset a b).trans (ifZero_fields_rejected a b _ hab)
  · rintro (rfl | rfl) ha
    · exact (decodeOp_edge a b).trans (ifZero_field_rejected a _ ha)
    · exact (decodeOp_poll a b).trans (ifZero_field_rejected a _ ha)
  · rintro rfl hb0 hb1
    have hupper : b.extractLsb' 1 31 ≠ 0 := fun h => ((upperBits_eq_zero_iff b).mp h).elim hb0 hb1
    exact (decodeOp_schedCfg a b).trans (ifZero_field_rejected _ _ hupper)

/-- An operation word that decodes is its instruction's encoding: the must-be-zero fields are the zeros the encoder
writes, and the other fields are packed again as they were. -/
theorem decodeOp_encodes (o : BitVec 8) (a b : BitVec 32) (i : Instr) (h : decodeOp (opWord o a b) = .instr i) :
    i.wf = true ∧ encode i = .op (opWord o a b) := by
  rcases opc_cases o with rfl | rfl | rfl | rfl | rfl | rfl | rfl | rfl | rfl | ⟨hlo, hhi⟩
  · obtain ⟨rfl, rfl, rfl⟩ := ifZero_fields_instr a b _ i (decodeOp_nop a b ▸ h)
    exact ⟨rfl, rfl⟩
  · obtain ⟨rfl, rfl⟩ := ifZero_field_instr a _ i (decodeOp_edge a b ▸ h)
    exact ⟨rfl, rfl⟩
  · obtain ⟨rfl, rfl⟩ := ifZero_field_instr a _ i (decodeOp_poll a b ▸ h)
    exact ⟨rfl, by rw [encode, packTime_unpackTime]⟩
  · obtain ⟨rfl, rfl, rfl⟩ := ifZero_fields_instr a b _ i (decodeOp_prepDone a b ▸ h)
    exact ⟨rfl, rfl⟩
  · rw [decodeOp_schedCfg, ifZero_instr, decide_eq_true_eq] at h
    obtain ⟨hupper, rfl⟩ := h
    exact ⟨rfl, by rw [encode, packTime_unpackTime, flagWord_of_upperBits b hupper]⟩
  · obtain ⟨rfl, rfl, rfl⟩ := ifZero_fields_instr a b _ i (decodeOp_mboxTake a b ▸ h)
    exact ⟨rfl, rfl⟩
  · rw [decodeOp_validate] at h
    cases h
    exact ⟨rfl, by rw [encode, packTime_unpackTime, packTime_unpackTime]⟩
  · rw [decodeOp_reached] at h
    cases h
    exact ⟨rfl, by rw [encode, packTime_unpackTime, packTime_unpackTime]⟩
  · obtain ⟨rfl, rfl, rfl⟩ := ifZero_fields_instr a b _ i (decodeOp_reset a b ▸ h)
    exact ⟨rfl, rfl⟩
  · rw [decodeOp_unassigned o a b hlo hhi] at h
    cases h

/-! ### Key tables (R65) -/

theorem KeyMap.distinctCodes_iff (m : KeyMap) : KeyMap.distinctCodes m = true ↔ (m.map Prod.fst).Nodup := by
  induction m with
  | nil => simp [KeyMap.distinctCodes]
  | cons e rest ih =>
    rw [KeyMap.distinctCodes, Bool.and_eq_true, ih, List.map_cons, List.nodup_cons]
    simp only [List.all_eq_true, decide_eq_true_eq, List.mem_map, not_exists, not_and]

theorem KeyMap.wf_iff (m : KeyMap) :
    KeyMap.wf m = true ↔ m.length = 16 ∧ (m.map Prod.fst).Nodup ∧ ∀ e ∈ m, e.2 ≠ .unrecognized := by
  simp [KeyMap.wf, KeyMap.distinctCodes_iff, and_assoc]

/-- Distinct bytes are as many of the 256 byte values as there are of them. -/
theorem length_filter_mem_bytes (codes : List Byte) (h : codes.Nodup) :
    ((List.range 256).filter fun n => decide (BitVec.ofNat 8 n ∈ codes)).length = codes.length := by
  have hperm : ((List.range 256).filter fun n => decide (BitVec.ofNat 8 n ∈ codes)).Perm
      (codes.map BitVec.toNat) := by
    refine (List.perm_ext_iff_of_nodup (List.nodup_range.filter _) (h.map fun _ _ => BitVec.eq_of_toNat_eq)).mpr
      fun n => ?_
    simp only [List.mem_filter, List.mem_range, decide_eq_true_eq, List.mem_map]
    constructor
    · rintro ⟨hn, hmem⟩
      exact ⟨_, hmem, by simpa using hn⟩
    · rintro ⟨c, hc, rfl⟩
      exact ⟨c.isLt, by simpa using hc⟩
  rw [hperm.length_eq, List.length_map]

/-! ### The round trips -/

/-- Settles O2: one form of presented word after the other. -/
theorem decodedWordsAreEncodings : Obligations.DecodedWordsAreEncodings := by
  intro w i h
  cases w with
  | op w =>
    rw [← opWord_of_fields w] at h ⊢
    exact decodeOp_encodes _ _ _ i h
  | frame w =>
    obtain rfl := Decoded.instr.inj h
    exact ⟨rfl, congrArg CodeWord.frame (bytes_append w)⟩
  | command c =>
    obtain rfl := Decoded.instr.inj h
    exact ⟨rfl, rfl⟩
  | key ctx code => exact decode_key_encodes ctx code i h
  | dataGap g =>
    obtain rfl := Decoded.instr.inj h
    exact decodeDataGap_encodes g
  | firstGap g =>
    obtain ⟨hwf, rfl⟩ := (decode_firstGap_instr g i).mp h
    exact ⟨hwf, rfl⟩

/-- Settles O1: the encoder writes the must-be-zero fields as zeros and the others so that the decoder's unpacking gives
them back; a symbol's gap spells it because its row admits the gap. -/
theorem decodeInvertsEncode : Obligations.DecodeInvertsEncode := by
  intro i hwf
  cases i with
  | nop => exact decodeOp_nop 0 0
  | edge t => exact decodeOp_edge 0 t
  | poll now => exact (decodeOp_poll 0 (packTime now)).trans (by rw [unpackTime_packTime]; rfl)
  | prepDone => exact decodeOp_prepDone 0 0
  | schedCfg time valid => exact (decodeOp_schedCfg_flag (packTime time) valid).trans (by rw [unpackTime_packTime])
  | mboxTake => exact decodeOp_mboxTake 0 0
  | validate target current =>
    exact (decodeOp_validate (packTime target) (packTime current)).trans (by simp only [unpackTime_packTime])
  | reached target current =>
    exact (decodeOp_reached (packTime target) (packTime current)).trans (by simp only [unpackTime_packTime])
  | reset => exact decodeOp_reset 0 0
  | decode ncmd cmd naddr addr => simp [decode, encode, decodeFrameWord]
  | repeatCode g => exact (decode_firstGap_instr g _).mpr ⟨hwf, rfl⟩
  | resolve command => rfl
  | publish k => exact decode_publishedKey k
  | symBit0 g => exact congrArg Decoded.instr (decodeDataGap_of_bit0 g hwf)
  | symBit1 g => exact congrArg Decoded.instr (decodeDataGap_of_bit1 g hwf)
  | symBad g =>
    simp only [Instr.wf, Bool.and_eq_true, Bool.not_eq_true'] at hwf
    obtain ⟨⟨h0, h1⟩, hs⟩ := hwf
    exact congrArg Decoded.instr (decodeDataGap_of_bad g h0 h1 hs)
  | symStale g => exact congrArg Decoded.instr (decodeDataGap_of_stale g hwf)
  | keyDigit0 | keyDigit1 | keyDigit2 | keyDigit3 | keyDigit4 | keyDigit5 | keyDigit6 | keyDigit7 | keyDigit8
  | keyDigit9 | keyPower | keyMenu | keyTest | keyPlus | keyMinus | keyBack | keyPrevious | keyPlay | keyNext
  | keyClear | keyUnrecognized =>
    rfl

/-- A word that the encoder writes for a well-formed instruction decodes to it. -/
theorem decode_of_encode_eq (w : CodeWord) (i : Instr) (hw : encode i = w) (hwf : i.wf = true) :
    decode w = .instr i := hw ▸ decodeInvertsEncode i hwf

/-- Settles O3: each word is what the encoder writes for its operation. -/
theorem sampleWordsDecodeAsWritten : Obligations.SampleWordsDecodeAsWritten := by
  refine ⟨?_, ?_, ?_, ?_, ?_, ?_⟩ <;> exact decode_of_encode_eq _ _ (by decide) rfl

end Sys2Proof

namespace Sys2Proof.Machine

open Sys2Proof.Safety

/-! ### Codes of frame kind and mode (R68) -/

@[simp] theorem bitOfKind_kindOfBit (b : BitVec 1) : bitOfKind (kindOfBit b) = b := by
  rcases BitVec.eq_zero_or_eq_one b with rfl | rfl <;> rfl

@[simp] theorem bitOfMode_modeOfBit (b : BitVec 1) : bitOfMode (modeOfBit b) = b := by
  rcases BitVec.eq_zero_or_eq_one b with rfl | rfl <;> rfl

/-- Settles O60: coding and decoding are inverse to each other, and MODE is written by the coding. -/
theorem kindAndModeCodesAsTabulated : Obligations.KindAndModeCodesAsTabulated := by
  refine ⟨rfl, rfl, rfl, rfl, fun k b => ⟨?_, ?_⟩, fun m b => ⟨?_, ?_⟩, fun _ _ => rfl⟩
  · rintro rfl
    exact kindOfBit_bitOfKind k
  · rintro rfl
    exact bitOfKind_kindOfBit b
  · rintro rfl
    exact modeOfBit_bitOfMode m
  · rintro rfl
    exact bitOfMode_modeOfBit b

/-! ### Frame words (R63, R64) -/

theorem checksumOk_iff (w : BitVec 32) :
    checksumOk w = true ↔ frameAddress w = ~~~ frameNaddr w ∧ frameCommand w = ~~~ frameNcmd w := by
  simp [checksumOk]

/-- A frame word is its four fields. -/
theorem frameWord_of_fields (w : BitVec 32) : frameNcmd w ++ frameCommand w ++ frameNaddr w ++ frameAddress w = w :=
  bytes_append w

/-- Settles O18: the two complement tests fix the two bytes that the pair leaves open. -/
theorem legalFrameWordsOnePerPair : Obligations.LegalFrameWordsOnePerPair := by
  intro addr cmd w
  rw [checksumOk_iff]
  constructor
  · rintro ⟨⟨hnaddr, hncmd⟩, rfl, rfl⟩
    conv_lhs => rw [← frameWord_of_fields w]
    rw [hnaddr, hncmd, BitVec.not_not, BitVec.not_not]
  · rintro rfl
    simp [frameAddress, frameNaddr, frameCommand, frameNcmd]

/-! ### The nominal frame (R77, R111, R114) -/

/-- The nominal gap of a data bit. -/
def nominalGap (b : Bool) : Gap := if b then 2250 else 1125

theorem nominalGap_eq_ofNat (b : Bool) : nominalGap b = BitVec.ofNat 32 (1125 * (1 + b.toNat)) := by cases b <;> rfl

theorem classifyGap_nominalGap (b : Bool) : classifyGap (nominalGap b) = some b := by cases b <;> rfl

/-- The edge after `j` data bits: 1125 for each of them, and 1125 more for each that is a 1. `t1` is the edge that ends
the header. -/
def dataEdge (w : BitVec 32) (t1 : Timestamp) (j : Nat) : Timestamp :=
  t1 + BitVec.ofNat 32 (1125 * (j + w.cpopNatRec j 0))

theorem dataEdge_zero (w : BitVec 32) (t1 : Timestamp) : dataEdge w t1 0 = t1 := by simp [dataEdge]

theorem dataEdge_succ (w : BitVec 32) (t1 : Timestamp) (j : Nat) :
    dataEdge w t1 (j + 1) = dataEdge w t1 j + nominalGap (w.getLsbD j) := by
  have hcount : w.cpopNatRec (j + 1) 0 = w.cpopNatRec j 0 + (w.getLsbD j).toNat := by
    rw [BitVec.cpopNatRec_succ, BitVec.cpopNatRec_eq, Nat.zero_add]
  rw [dataEdge, dataEdge, hcount, nominalGap_eq_ofNat, BitVec.add_assoc, ← BitVec.ofNat_add]
  congr 2
  ring

theorem dt_dataEdge_succ (w : BitVec 32) (t1 : Timestamp) (j : Nat) :
    dt (dataEdge w t1 (j + 1)) (dataEdge w t1 j) = nominalGap (w.getLsbD j) := by
  rw [dataEdge_succ, dt_add_left]

theorem dataEdges_eq_map (w : BitVec 32) (t1 : Timestamp) (j n : Nat) :
    dataEdges w (dataEdge w t1 j) j n = (List.range' (j + 1) n).map (dataEdge w t1) := by
  induction n generalizing j with
  | zero => rfl
  | succ n ih =>
    have hnext : dataEdge w t1 j + (if w.getLsbD j then 2250 else 1125) = dataEdge w t1 (j + 1) :=
      (dataEdge_succ w t1 j).symm
    rw [dataEdges, hnext, ih, List.range'_succ, List.map_cons]

/-- The 34 edges in closed form: the first edge, and the 33 that end the header and the data bits. -/
theorem frameEdges_eq_map (w : BitVec 32) (t0 : Timestamp) :
    frameEdges w t0 = t0 :: (List.range' 0 33).map (dataEdge w (t0 + 13500)) := by
  have hdata := dataEdges_eq_map w (t0 + 13500) 0 32
  rw [dataEdge_zero] at hdata
  rw [frameEdges, hdata, List.range'_succ (s := 0), List.map_cons, dataEdge_zero]

/-- The nominal gaps of bits `j` to 31 complete a word whose upper bits are the bits below `j` already. -/
theorem assembleWord_nominalGaps (w v : BitVec 32) (j n : Nat) (hn : j + n = 32)
    (hv : ∀ i, i < j → v.getLsbD (n + i) = w.getLsbD i) :
    assembleWord v ((List.range' j n).map fun i => nominalGap (w.getLsbD i)) = some w := by
  induction n generalizing v j with
  | zero =>
    have hvw : v = w := BitVec.eq_of_getLsbD_eq fun i hi => by simpa using hv i (by omega)
    rw [hvw]
    rfl
  | succ n ih =>
    rw [List.range'_succ, List.map_cons, assembleWord_cons, classifyGap_nominalGap, Option.bind_some]
    refine ih _ (j + 1) (by omega) fun i hi => ?_
    rw [shiftInBit_getLsbD _ _ _ (by omega)]
    split
    · next htop => rw [show i = j by omega]
    · next hlow => rw [← hv i (by omega), show n + i + 1 = n + 1 + i by omega]

/-- Settles O57: the data gaps of the closed form are the nominal gaps of the word's bits, lowest first. -/
theorem nominalFrameSpellsItsWord : Obligations.NominalFrameSpellsItsWord := by
  intro w t0
  rw [frameEdges_eq_map]
  refine ⟨by simp, ?_⟩
  rw [List.tail_cons, gapsOf_map_range']
  simp only [dt_dataEdge_succ]
  exact assembleWord_nominalGaps w 0 0 32 rfl (by simp)

/-- Each byte of a legal word stands beside its complement, so half of the 32 bits are set. -/
theorem cpop_legalWord (addr cmd : Byte) :
    (~~~ cmd ++ cmd ++ ~~~ addr ++ addr : BitVec 32).cpopNatRec 32 0 = 16 := by
  have haddr := BitVec.toNat_cpop_le addr
  have hcmd := BitVec.toNat_cpop_le cmd
  calc (~~~ cmd ++ cmd ++ ~~~ addr ++ addr : BitVec 32).cpopNatRec 32 0
      = (~~~ cmd ++ cmd ++ ~~~ addr ++ addr : BitVec 32).cpop.toNat := (BitVec.toNat_cpop _).symm
    _ = 8 - cmd.cpop.toNat + cmd.cpop.toNat + (8 - addr.cpop.toNat) + addr.cpop.toNat := by
        rw [BitVec.toNat_cpop_append, BitVec.toNat_cpop_append, BitVec.toNat_cpop_append, BitVec.toNat_cpop_not,
          BitVec.toNat_cpop_not]
    _ = 16 := by omega

/-- Settles O58: 13500 for the header, 32 times 1125 for the bits, and 16 times 1125 for those that are set. -/
theorem legalFrameLasts67500 : Obligations.LegalFrameLasts67500 := by
  intro addr cmd t0
  rw [frameEdges_eq_map, List.getElem?_cons_succ, List.getElem?_map, List.getElem?_range' (by omega), Option.map_some,
    dataEdge, cpop_legalWord, BitVec.add_assoc]
  rfl

/-! ### The stale symbol (R62, R91) -/

/-- An edge into an emptied buffer becomes cell 0. -/
theorem appendEdge_emptied (t : Timestamp) (c : Capture) :
    appendEdge t { c with ebCnt := 0 } = .ok { cells := c.cells.write 0 t, ebCnt := 1 } :=
  (appendEdge_ok t _ _).mpr ⟨by simp, rfl⟩

theorem restartBuffer_of_last (g : Gap) (s : State) (last : Timestamp) (h0 : s.capture.ebCnt ≠ 0)
    (hlast : readCell s.capture.cells (s.capture.ebCnt.toNat - 1) = .ok last) :
    restartBuffer g s =
      .next { s.begin with capture := { cells := s.capture.cells.write 0 (last + g), ebCnt := 1 } } := by
  rw [restartBuffer, if_neg h0, hlast]
  simp only [appendEdge_emptied]

/-- The four steps of an edge that finds the buffer stale. -/
theorem edgeSteps_of_stale (m : KeyMap) (t : Timestamp) (s : State)
    (hstale : staleCheck t s.capture = .ok { s.capture with ebCnt := 0 }) :
    edgeSteps m t s = .next { s.begin with capture := { cells := s.capture.cells.write 0 t, ebCnt := 1 } } := by
  rw [edgeSteps_of_append m t s _ _ hstale rfl (appendEdge_emptied t s.capture)]
  exact handOff_of_short m _ (show (1 : BitVec 6) ≠ 34 by decide)

/-- Settles O23: both rows restart the buffer, at the timestamp that is `g` after the last stored edge. -/
theorem staleSymbolActsAsStaleEdge : Obligations.StaleSymbolActsAsStaleEdge := by
  constructor
  · intro s g last hlegal h0 hread
    have hle := hlegal.countInRange
    have hlast : readCell s.capture.cells (s.capture.ebCnt.toNat - 1) = .ok last :=
      (readCell_ok _ _ _).mpr ⟨by omega, hread⟩
    have hsym : exec (.symStale g) s = .next { s.begin with
        capture := { cells := s.capture.cells.write 0 (last + g), ebCnt := 1 } } :=
      (onLegalCapture_legal _ _ hlegal).trans (restartBuffer_of_last g s last h0 hlast)
    refine ⟨hsym, fun hg => ?_⟩
    have hgap : isStaleGap (dt (last + g) last) = true := by
      rw [dt_add_left, isStaleGap_iff]
      exact hg
    have hstale : staleCheck (last + g) s.capture = .ok { s.capture with ebCnt := 0 } := by
      rw [staleCheck, if_neg h0, hlast]
      exact congrArg Except.ok (if_pos hgap)
    exact hsym.trans
      ((onLegalCapture_legal _ _ hlegal).trans (edgeSteps_of_stale keymap (last + g) s hstale)).symm
  · intro s g h0
    have hlegal : LegalCapture s.capture := by
      have hempty := legalCapture_emptied s.capture
      rwa [← h0] at hempty
    exact (onLegalCapture_legal _ _ hlegal).trans (if_pos h0)

/-! ### RESOLVE (R131) -/

/-- With distinct command bytes the entry with a byte is the one a search finds. -/
theorem resolveWith_of_mem (m : KeyMap) (hm : (m.map Prod.fst).Nodup) (e : Byte × LogicalKey) (he : e ∈ m) :
    resolveWith m e.1 = e.2 := by
  cases hfind : m.find? (fun f => decide (f.1 = e.1)) with
  | none => simpa using List.find?_eq_none.mp hfind e he
  | some f =>
    have hf : f.1 = e.1 := by simpa using List.find?_some hfind
    obtain rfl : f = e := List.inj_on_of_nodup_map hm (List.mem_of_find?_eq_some hfind) he hf
    simp only [resolveWith, hfind]

theorem resolveWith_of_unlisted (m : KeyMap) (c : Byte) (h : ∀ e ∈ m, e.1 ≠ c) :
    resolveWith m c = .unrecognized := by
  have hfind : m.find? (fun e => decide (e.1 = c)) = none := List.find?_eq_none.mpr (by simpa using h)
  simp only [resolveWith, hfind]

/-- Under a legal table the bytes that resolve to UNRECOGNIZED are those the table does not list. -/
theorem resolveWith_eq_unrecognized_iff (m : KeyMap) (hm : KeyMap.wf m = true) (c : Byte) :
    resolveWith m c = .unrecognized ↔ c ∉ m.map Prod.fst := by
  obtain ⟨_, hnodup, hnamed⟩ := (KeyMap.wf_iff m).mp hm
  constructor
  · intro hres hmem
    obtain ⟨e, he, rfl⟩ := List.mem_map.mp hmem
    exact hnamed e he ((resolveWith_of_mem m hnodup e he).symm.trans hres)
  · exact fun hmem => resolveWith_of_unlisted m c fun e he heq => hmem (List.mem_map.mpr ⟨e, he, heq⟩)

/-- Settles O24: KEYMAP is always a legal table, so its bytes are distinct. -/
theorem resolveFollowsKeymap : Obligations.ResolveFollowsKeymap := by
  obtain ⟨_, hnodup, _⟩ := (KeyMap.wf_iff keymap).mp keymap_wf
  constructor
  · intro s e he
    rw [← resolveWith_of_mem keymap hnodup e he]
    rfl
  · intro s c hc
    rw [← resolveWith_of_unlisted keymap c hc]
    rfl

/-- Settles O25: of the 256 bytes all but the 16 listed ones are UNRECOGNIZED. -/
theorem unlistedCommandsNumber240 : Obligations.UnlistedCommandsNumber240 := by
  intro m hm
  obtain ⟨hlen, hnodup, _⟩ := (KeyMap.wf_iff m).mp hm
  have hlisted := length_filter_mem_bytes (m.map Prod.fst) hnodup
  have hsplit := List.length_eq_length_filter_add (l := List.range 256)
    fun n => decide (BitVec.ofNat 8 n ∈ m.map Prod.fst)
  simp only [resolveWith_eq_unrecognized_iff m hm, decide_not]
  rw [hlisted, List.length_map, hlen, List.length_range] at hsplit
  omega

/-! ### Reserved key codes (U14) -/

/-- Codes 20..30 name no key, so the mailbox reads them as UNRECOGNIZED. -/
theorem keyOfCode_of_reserved (code : BitVec 5) (hlo : 20 ≤ code.toNat) (hhi : code.toNat ≤ 30) :
    keyOfCode code = .unrecognized := by
  cases hk : namedKey? code with
  | none => simp [keyOfCode, hk]
  | some k =>
    obtain rfl := codeOfKey_of_named code k hk
    cases k <;> simp [codeOfKey] at hlo hhi

theorem WorkflowState.takesKey_of_keyDriven (w : WorkflowState)
    (h : w = .initialScreen ∨ w = .selectCups ∨ ∃ c, w = .scheduleOrNow c) : w.takesKey = true := by
  rcases h with rfl | rfl | ⟨c, rfl⟩ <;> rfl

/-- In a key-driven state POLL does with a pending key what the key's row does with the mailbox emptied. -/
theorem execPoll_of_pending (now : Time4) (s : State) (w : WorkflowState) (hw : s.view = .live w)
    (htakes : w.takesKey = true) (hp : s.mailbox.pressed = true) :
    execPoll now s = keyEvent (keyOfCode s.mailbox.key) s.clearPressed := by
  have hview : s.clearPressed.view = .live w := hw
  rw [execPoll_of_live now s w hw, keyEvent_of_live _ _ w hview, pollLive_of_takesKey w now _ htakes,
    keyOfCode_takenCode, State.begin_mailbox, if_pos hp]
  rfl

/-- Settles O59: the take and POLL both read the code as UNRECOGNIZED's. -/
theorem reservedPendingCodesReadAsUnrecognized : Obligations.ReservedPendingCodesReadAsUnrecognized := by
  intro s now hp hlo hhi
  have hkey := keyOfCode_of_reserved s.mailbox.key hlo hhi
  constructor
  · have hcode : takenCode s.mailbox = 31 := by rw [takenCode, if_pos hp, hkey]; rfl
    rw [exec_mboxTake, hcode, hp]
    rfl
  · intro w hw hdriven
    have hpoll := execPoll_of_pending now s w hw (w.takesKey_of_keyDriven hdriven) hp
    rw [hkey] at hpoll
    exact hpoll

end Sys2Proof.Machine
end

section
/-! PROOFS. The family 40_capture.md. What EDGE does in a legal image, by the gap its timestamp makes: the stale check
(R91), the repeat test (R93), the append (R94) and the full-frame handoff (R95). -/

namespace Sys2Proof.Machine

open Sys2Proof.Safety

/-! ### EDGE and its checks, case by case -/

/-- Stored edges that are known one by one are a legal image where item 3 of R23 holds of them. -/
theorem legalCapture_of_edges (c : Capture) (x : Nat → Timestamp) (hle : c.ebCnt.toNat ≤ 33)
    (hread : ∀ i, i < c.ebCnt.toNat → c.cells.read i = some (x i))
    (hgaps : ∀ i, i + 1 < c.ebCnt.toNat → (dt (x (i + 1)) (x i)).toNat ≤ 15000)
    (hfirst : 2 ≤ c.ebCnt.toNat → ¬ (9563 ≤ (dt (x 1) (x 0)).toNat ∧ (dt (x 1) (x 0)).toNat ≤ 12937)) :
    LegalCapture c where
  countInRange := hle
  written := fun i hi => ⟨x i, hread i hi⟩
  gapsShort := fun i a b hi ha hb => by
    obtain rfl := Option.some.inj ((hread i (by omega)).symm.trans ha)
    obtain rfl := Option.some.inj ((hread (i + 1) hi).symm.trans hb)
    exact hgaps i hi
  firstGapNoRepeat := fun a b h2 ha hb => by
    obtain rfl := Option.some.inj ((hread 0 (by omega)).symm.trans ha)
    obtain rfl := Option.some.inj ((hread 1 (by omega)).symm.trans hb)
    exact hfirst h2

theorem legalCapture_of_empty (c : Capture) (h : c.ebCnt = 0) : LegalCapture c :=
  legalCapture_of_edges c (fun _ => 0) (by simp [h]) (by simp [h]) (by simp [h]) (by simp [h])

/-- One stored edge has no gap, so it is a legal image wherever it stands. -/
theorem legalCapture_of_single (c : Capture) (f : Timestamp) (h : c.ebCnt = 1) (hread : c.cells.read 0 = some f) :
    LegalCapture c :=
  legalCapture_of_edges c (fun _ => f) (by simp [h]) (by simp [h, hread]) (by simp [h]) (by simp [h])

theorem exec_edge_of_legal (t : Timestamp) (s : State) (h : LegalCapture s.capture) :
    exec (.edge t) s = edgeSteps keymap t s := onLegalCapture_legal _ _ h

/-- The stale check of a non-empty buffer turns on the gap since its last stored edge. -/
theorem staleCheck_of_last (t last : Timestamp) (c : Capture) (hle : c.ebCnt.toNat ≤ 33) (h0 : c.ebCnt ≠ 0)
    (hlast : c.cells.read (c.ebCnt.toNat - 1) = some last) :
    staleCheck t c = .ok (if isStaleGap (dt t last) then { c with ebCnt := 0 } else c) := by
  rw [staleCheck, if_neg h0, (readCell_ok _ _ last).mpr ⟨by omega, hlast⟩]

theorem staleCheck_of_stale (t last : Timestamp) (c : Capture) (hle : c.ebCnt.toNat ≤ 33) (h0 : c.ebCnt ≠ 0)
    (hlast : c.cells.read (c.ebCnt.toNat - 1) = some last) (hgap : 15000 < (dt t last).toNat) :
    staleCheck t c = .ok { c with ebCnt := 0 } := by
  rw [staleCheck_of_last t last c hle h0 hlast, if_pos ((isStaleGap_iff _).mpr hgap)]

theorem staleCheck_of_empty (t : Timestamp) (c : Capture) (h : c.ebCnt = 0) : staleCheck t c = .ok c := if_pos h

theorem staleCheck_of_recent (t last : Timestamp) (c : Capture) (hle : c.ebCnt.toNat ≤ 33)
    (hlast : c.cells.read (c.ebCnt.toNat - 1) = some last) (hgap : (dt t last).toNat ≤ 15000) :
    staleCheck t c = .ok c := by
  by_cases h0 : c.ebCnt = 0
  · exact staleCheck_of_empty t c h0
  · have hfresh : ¬ isStaleGap (dt t last) = true := by
      rw [isStaleGap_iff]
      omega
    rw [staleCheck_of_last t last c hle h0 hlast, if_neg hfresh]

/-- The repeat test looks at the gap only with exactly one stored edge. -/
theorem repeatTest_of_other (t : Timestamp) (c : Capture) (h : c.ebCnt ≠ 1) : repeatTest t c = .ok false := if_neg h

theorem repeatTest_of_single (t f : Timestamp) (c : Capture) (h : c.ebCnt = 1) (hf : c.cells.read 0 = some f) :
    repeatTest t c = .ok (isRepeatGap (dt t f)) := by
  rw [repeatTest, if_pos h, (readCell_ok _ 0 f).mpr ⟨by omega, hf⟩]

/-- The repeat test finds none where the gap since the last stored edge is outside the window or the buffer holds more
than one edge. -/
theorem repeatTest_of_noRepeat (t last : Timestamp) (c : Capture) (hlast : c.cells.read (c.ebCnt.toNat - 1) = some last)
    (hgap : ¬ (c.ebCnt = 1 ∧ 9563 ≤ (dt t last).toNat ∧ (dt t last).toNat ≤ 12937)) :
    repeatTest t c = .ok false := by
  by_cases h1 : c.ebCnt = 1
  · have hnone : isRepeatGap (dt t last) = false :=
      Bool.eq_false_iff.mpr fun hrep => hgap ⟨h1, (isRepeatGap_iff _).mp hrep⟩
    rw [h1] at hlast
    rw [repeatTest_of_single t last c h1 hlast, hnone]
  · exact repeatTest_of_other t c h1

/-! ### The append, the stale buffer and the repeat code -/

/-- An edge that passes both checks and does not fill the buffer is stored, and nothing else happens. -/
theorem edgeSteps_of_stored (m : KeyMap) (t : Timestamp) (s : State) (hroom : s.capture.ebCnt.toNat ≤ 32)
    (hstale : staleCheck t s.capture = .ok s.capture) (hrepeat : repeatTest t s.capture = .ok false) :
    edgeSteps m t s = .next { s.begin with
      capture := { cells := s.capture.cells.write s.capture.ebCnt.toNat t, ebCnt := s.capture.ebCnt + 1 } } := by
  rw [edgeSteps_of_append m t s _ _ hstale hrepeat ((appendEdge_ok t _ _).mpr ⟨by omega, rfl⟩)]
  exact handOff_of_short m _ (show s.capture.ebCnt + 1 ≠ 34 by bv_omega)

/-- Settles O7: neither check stops the edge, by the emptiness of the buffer or by the gap. -/
theorem edgeAppendsWithinBuffer : Obligations.EdgeAppendsWithinBuffer := by
  intro s t hlegal hroom hcase
  rw [exec_edge_of_legal t s hlegal]
  rcases hcase with h0 | ⟨last, hlast, hshort, hnoRepeat⟩
  · exact edgeSteps_of_stored keymap t s hroom (staleCheck_of_empty t _ h0) (repeatTest_of_other t _ (by simp [h0]))
  · exact edgeSteps_of_stored keymap t s hroom (staleCheck_of_recent t last _ (by omega) hlast hshort)
      (repeatTest_of_noRepeat t last _ hlast hnoRepeat)

/-- Settles O6: the empty buffer and the gap of exactly 15000 are appends; above it the stale check resets the count. -/
theorem edgeStaleCheckRestartsBuffer : Obligations.EdgeStaleCheckRestartsBuffer := by
  refine ⟨fun s t h0 => ?_, fun s t last hlegal h0 hlast hgap => ?_,
    fun s t last hlegal _ hroom hlast hgap => ?_⟩
  · have happend := edgeAppendsWithinBuffer s t (legalCapture_of_empty _ h0) (by simp [h0]) (.inl h0)
    rw [h0] at happend
    exact happend
  · rw [exec_edge_of_legal t s hlegal]
    exact edgeSteps_of_stale keymap t s (staleCheck_of_stale t last _ hlegal.countInRange h0 hlast hgap)
  · exact edgeAppendsWithinBuffer s t hlegal hroom (.inr ⟨last, hlast, by omega, by omega⟩)

/-- The second edge at a repeat gap: REPEAT runs, and the buffer is reset with no cell written. -/
theorem exec_edge_of_repeatGap (t f : Timestamp) (s : State) (h1 : s.capture.ebCnt = 1)
    (hf : s.capture.cells.read 0 = some f) (hlo : 9563 ≤ (dt t f).toNat) (hhi : (dt t f).toNat ≤ 12937) :
    exec (.edge t) s = .next ((repeatAndPublish keymap s.begin).setCount 0) := by
  have hstale : staleCheck t s.capture = .ok s.capture :=
    staleCheck_of_recent t f _ (by simp [h1]) (by simpa [h1] using hf) (by omega)
  have hrepeat : repeatTest t s.capture = .ok true := by
    rw [repeatTest_of_single t f _ h1 hf, (isRepeatGap_iff _).mpr ⟨hlo, hhi⟩]
  rw [exec_edge_of_legal t s (legalCapture_of_single _ f h1 hf)]
  exact edgeSteps_of_repeat keymap t s s.capture hstale hrepeat

/-- Settles O8: in the window REPEAT runs on LAST_*; just outside it, and at any later edge, the edge is appended. -/
theorem edgeDetectsRepeatAtSecondEdge : Obligations.EdgeDetectsRepeatAtSecondEdge := by
  refine ⟨fun s t f h1 hf hlo hhi => ?_, fun s t f h1 hf hgap => ?_,
    fun s t last hlegal h2 hroom hlast hlo hhi => ?_⟩
  · rw [exec_edge_of_repeatGap t f s h1 hf hlo hhi]
    constructor
    · intro hvalid
      rw [repeatAndPublish_of_valid keymap s.begin hvalid]
      rfl
    · intro hempty
      rw [repeatAndPublish_of_empty keymap s.begin hempty]
      rfl
  · have happend := edgeAppendsWithinBuffer s t (legalCapture_of_single _ f h1 hf) (by simp [h1])
      (.inr ⟨f, by simpa [h1] using hf, by omega, by omega⟩)
    rw [h1] at happend
    exact happend
  · have hlater : s.capture.ebCnt ≠ 1 := by bv_omega
    exact edgeAppendsWithinBuffer s t hlegal hroom (.inr ⟨last, hlast, by omega, fun ⟨h1, _⟩ => hlater h1⟩)

/-! ### The full frame (R95, R98, R110 to R118) -/

theorem classifyGap_of_spellsBit (b : Bool) (g : Gap) (h : SpellsBit b g) : classifyGap g = some b := by
  cases b with
  | true =>
    have hwindow : 1913 ≤ g.toNat ∧ g.toNat ≤ 2587 := h
    have hbit0 : ¬ isBit0 g = true := by
      rw [isBit0_iff]
      omega
    rw [classifyGap, if_neg hbit0, if_pos ((isBit1_iff g).mpr hwindow)]
  | false => rw [classifyGap, if_pos ((isBit0_iff g).mpr h)]

/-- The gap of a data bit is far below the silence threshold. -/
theorem spellsBit_le_silence (b : Bool) (g : Gap) (h : SpellsBit b g) : g.toNat ≤ 15000 := by
  cases b with
  | true =>
    have hwindow : 1913 ≤ g.toNat ∧ g.toNat ≤ 2587 := h
    omega
  | false =>
    have hwindow : 957 ≤ g.toNat ∧ g.toNat ≤ 1293 := h
    omega

/-- The assembled word depends on the gaps through the bits they spell only. -/
theorem assembleWord_congr (v : BitVec 32) (f g : Nat → Gap) (is : List Nat)
    (h : ∀ i ∈ is, classifyGap (f i) = classifyGap (g i)) :
    assembleWord v (is.map f) = assembleWord v (is.map g) := by
  induction is generalizing v with
  | nil => rfl
  | cons i rest ih =>
    have hrest := fun b => ih (shiftInBit v b) fun j hj => h j (List.mem_cons_of_mem i hj)
    simp only [List.map_cons, assembleWord_cons, h i List.mem_cons_self, hrest]

/-- 32 gaps that spell the bits of a word, first gap bit 0, assemble to that word. -/
theorem assembleWord_of_spellsBit (w : BitVec 32) (g : Nat → Gap)
    (h : ∀ j, j < 32 → SpellsBit (w.getLsbD j) (g j)) :
    assembleWord 0 ((List.range' 0 32).map g) = some w := by
  have hbits : ∀ j ∈ List.range' 0 32, classifyGap (g j) = classifyGap (nominalGap (w.getLsbD j)) := fun j hj => by
    simp only [List.mem_range'_1] at hj
    rw [classifyGap_of_spellsBit _ _ (h j (by omega)), classifyGap_nominalGap]
  rw [assembleWord_congr 0 g _ _ hbits]
  exact assembleWord_nominalGaps w 0 0 32 rfl (by simp)

/-- A full buffer spells what its 32 data gaps assemble to. -/
theorem bufferWord_of_edges (m : Memory) (x : Nat → Timestamp) (h : ∀ i, i ≤ 33 → m.read i = some (x i)) :
    bufferWord m = .ok (assembleWord 0 ((List.range' 0 32).map fun j => dt (x (j + 2)) (x (j + 1)))) := by
  have hcells := readCells_map m x (List.range' 1 33) fun i hi => by
    simp only [List.mem_range'_1] at hi
    exact ⟨by omega, h i (by omega)⟩
  have hdata : gapsOf ((List.range' 1 33).map x) = (List.range' 0 32).map fun j => dt (x (j + 2)) (x (j + 1)) :=
    gapsOf_map_range' x 1 32
  rw [bufferWord, hcells]
  exact congrArg (fun gs => Except.ok (assembleWord 0 gs)) hdata

/-- The 34th edge of a legal transmission is stored and the full buffer decoded, whatever its data gaps spell. -/
theorem exec_edge_of_full (s : State) (x : Nat → Timestamp) (h33 : s.capture.ebCnt = 33)
    (hread : ∀ i, i ≤ 32 → s.capture.cells.read i = some (x i))
    (hgaps : ∀ i, i ≤ 32 → (dt (x (i + 1)) (x i)).toNat ≤ 15000)
    (hfirst : ¬ (9563 ≤ (dt (x 1) (x 0)).toNat ∧ (dt (x 1) (x 0)).toNat ≤ 12937)) :
    exec (.edge (x 33)) s = .next ((decodeAndPublish keymap
      (assembleWord 0 ((List.range' 0 32).map fun j => dt (x (j + 2)) (x (j + 1))))
      { s.begin with capture := { cells := s.capture.cells.write 33 (x 33), ebCnt := 34 } }).setCount 0) := by
  have hcount : s.capture.ebCnt.toNat = 33 := by rw [h33]; rfl
  have hlegal : LegalCapture s.capture := legalCapture_of_edges _ x (by omega) (fun i hi => hread i (by omega))
    (fun i hi => hgaps i (by omega)) (fun _ => hfirst)
  have hstale : staleCheck (x 33) s.capture = .ok s.capture :=
    staleCheck_of_recent _ (x 32) _ (by omega) (by rw [hcount]; exact hread 32 (by omega)) (hgaps 32 (by omega))
  have happend : appendEdge (x 33) s.capture = .ok { cells := s.capture.cells.write 33 (x 33), ebCnt := 34 } :=
    (appendEdge_ok _ _ _).mpr ⟨by omega, by rw [hcount, h33]; rfl⟩
  have hcells : ∀ i, i ≤ 33 → (s.capture.cells.write 33 (x 33)).read i = some (x i) := fun i hi => by
    by_cases htop : i = 33
    · rw [htop, Memory.read_write_same]
    · rw [Memory.read_write_other _ _ _ _ htop, hread i (by omega)]
  rw [exec_edge_of_legal _ s hlegal,
    edgeSteps_of_append keymap _ s _ _ hstale (repeatTest_of_other _ _ (by simp [h33])) happend]
  exact handOff_of_full keymap _ _ rfl (bufferWord_of_edges _ x hcells)

/-- Settles O9: the data gaps assemble to the word, and its checksum is the two complement tests. -/
theorem edgeDecodesCompleteFrame : Obligations.EdgeDecodesCompleteFrame := by
  intro s x w h33 hread hheader hfirst hspell haddr hcmd
  have hgaps : ∀ i, i ≤ 32 → (dt (x (i + 1)) (x i)).toNat ≤ 15000 := fun i hi => by
    cases i with
    | zero => exact hheader
    | succ j => exact spellsBit_le_silence _ _ (hspell j (by omega))
  rw [exec_edge_of_full s x h33 hread hgaps hfirst, assembleWord_of_spellsBit w _ hspell,
    decodeAndPublish_of_accepted keymap w _ ((checksumOk_iff w).mpr ⟨haddr, hcmd⟩)]
  rfl

end Sys2Proof.Machine
end

section
/-! PROOFS. The family 41_frame_decode.md. What a gap spells (R112, R113), how the word is assembled (R114), the rows
DECODE, REPEAT and SYM_* on their own (R117 to R121), and the two drops of a full buffer (R119). -/

namespace Sys2Proof.Machine

open Sys2Proof.Safety

/-! ### What a gap spells (R112, R113) -/

theorem spellsBit_of_classifyGap (b : Bool) (g : Gap) (h : classifyGap g = some b) : SpellsBit b g := by
  rw [classifyGap] at h
  split at h
  · next hbit0 =>
    obtain rfl := Option.some.inj h
    exact (isBit0_iff g).mp hbit0
  · split at h
    · next hbit1 =>
      obtain rfl := Option.some.inj h
      exact (isBit1_iff g).mp hbit1
    · exact absurd h nofun

theorem classifyGap_of_spellsNoBit (g : Gap) (h0 : ¬ SpellsBit false g) (h1 : ¬ SpellsBit true g) :
    classifyGap g = none := by
  cases hg : classifyGap g with
  | none => rfl
  | some b =>
    have hspell := spellsBit_of_classifyGap b g hg
    cases b with
    | false => exact absurd hspell h0
    | true => exact absurd hspell h1

/-! ### The word under assembly (R114) -/

theorem shiftInBit_top (w : BitVec 32) (b : Bool) : (shiftInBit w b).getLsbD 31 = b := by
  rw [shiftInBit_getLsbD w b 31 (by omega), if_pos rfl]

theorem shiftInBit_below (w : BitVec 32) (b : Bool) (i : Nat) (hi : i < 31) :
    (shiftInBit w b).getLsbD i = w.getLsbD (i + 1) := by
  rw [shiftInBit_getLsbD w b i (by omega), if_neg (by omega)]

theorem assembleWord_of_classified (w : BitVec 32) (g : Gap) (rest : List Gap) (b : Bool) (h : classifyGap g = some b) :
    assembleWord w (g :: rest) = assembleWord (shiftInBit w b) rest := by
  rw [assembleWord_cons, h, Option.bind_some]

/-- Where gaps assemble to a word, the first of them spells a bit and the others assemble to it after that bit. -/
theorem assembleWord_cons_some (v w : BitVec 32) (g : Gap) (rest : List Gap) (h : assembleWord v (g :: rest) = some w) :
    ∃ b, classifyGap g = some b ∧ assembleWord (shiftInBit v b) rest = some w :=
  Option.bind_eq_some_iff.mp ((assembleWord_cons v g rest).symm.trans h)

/-- One gap that spells no bit is enough to lose the word. -/
theorem assembleWord_of_unclassified (v : BitVec 32) (gs : List Gap) (g : Gap) (hmem : g ∈ gs)
    (hg : classifyGap g = none) : assembleWord v gs = none := by
  induction gs generalizing v with
  | nil => exact absurd hmem List.not_mem_nil
  | cons a rest ih =>
    rw [assembleWord_cons]
    rcases List.mem_cons.mp hmem with rfl | hrest
    · rw [hg, Option.bind_none]
    · exact Option.bind_eq_none_iff.mpr fun b _ => ih (shiftInBit v b) hrest

/-- The bits of the starting word move down by one for each gap. -/
theorem assembleWord_lowBits (v w : BitVec 32) (gs : List Gap) (h : assembleWord v gs = some w) (i : Nat)
    (hi : i + gs.length < 32) : w.getLsbD i = v.getLsbD (i + gs.length) := by
  induction gs generalizing v with
  | nil =>
    obtain rfl := Option.some.inj h
    rfl
  | cons g rest ih =>
    rw [List.length_cons] at hi ⊢
    obtain ⟨b, _, hrest⟩ := assembleWord_cons_some v w g rest h
    rw [ih _ hrest (by omega), shiftInBit_below v b _ (by omega), Nat.add_assoc]

/-- The bits the gaps spell fill the top of the word, the first of them lowest. -/
theorem assembleWord_receivedBits (v w : BitVec 32) (gs : List Gap) (h : assembleWord v gs = some w)
    (hlen : gs.length ≤ 32) (j : Nat) (hj : j < gs.length) :
    classifyGap gs[j] = some (w.getLsbD (32 - gs.length + j)) := by
  induction gs generalizing v j with
  | nil => exact absurd hj (Nat.not_lt_zero j)
  | cons g rest ih =>
    rw [List.length_cons] at hlen hj
    obtain ⟨b, hb, hrest⟩ := assembleWord_cons_some v w g rest h
    cases j with
    | zero =>
      have hbit : w.getLsbD (31 - rest.length) = b := by
        rw [assembleWord_lowBits _ w rest hrest _ (by omega), Nat.sub_add_cancel (by omega), shiftInBit_top]
      rw [List.length_cons, show 32 - (rest.length + 1) + 0 = 31 - rest.length by omega, hbit]
      exact hb
    | succ j =>
      rw [List.length_cons, show 32 - (rest.length + 1) + (j + 1) = 32 - rest.length + j by omega]
      exact ih _ hrest (by omega) j (by omega)

/-- Settles O20: with 32 gaps nothing of the starting word is left, and the first gap's bit is at bit 0. -/
theorem assembledBitsArriveLowestFirst : Obligations.AssembledBitsArriveLowestFirst := by
  refine ⟨assembleWord_of_classified, fun gs w hlen h j hj => ?_⟩
  have hbit := assembleWord_receivedBits 0 w gs h (by omega) j hj
  rwa [hlen, Nat.sub_self, Nat.zero_add] at hbit

/-! ### The full buffer that is dropped (R119, R201, R202) -/

/-- The 34th edge of a transmission whose data gaps spell a word decodes that word. -/
theorem exec_edge_of_spelledWord (s : State) (x : Nat → Timestamp) (w : BitVec 32) (h33 : s.capture.ebCnt = 33)
    (hread : ∀ i, i ≤ 32 → s.capture.cells.read i = some (x i)) (hheader : (dt (x 1) (x 0)).toNat ≤ 15000)
    (hfirst : ¬ (9563 ≤ (dt (x 1) (x 0)).toNat ∧ (dt (x 1) (x 0)).toNat ≤ 12937))
    (hspell : ∀ j, j < 32 → SpellsBit (w.getLsbD j) (dt (x (j + 2)) (x (j + 1)))) :
    exec (.edge (x 33)) s = .next ((decodeAndPublish keymap (some w)
      { s.begin with capture := { cells := s.capture.cells.write 33 (x 33), ebCnt := 34 } }).setCount 0) := by
  have hgaps : ∀ i, i ≤ 32 → (dt (x (i + 1)) (x i)).toNat ≤ 15000 := fun i hi => by
    cases i with
    | zero => exact hheader
    | succ j => exact spellsBit_le_silence _ _ (hspell j (by omega))
  rw [exec_edge_of_full s x h33 hread hgaps hfirst, assembleWord_of_spellsBit w _ hspell]

/-- Settles O10: the word is assembled, and its checksum fails. -/
theorem edgeDropsFrameWithBadChecksum : Obligations.EdgeDropsFrameWithBadChecksum := by
  intro s x w h33 hread hheader hfirst hspell hmismatch
  have hbad : checksumOk w = false := Bool.eq_false_iff.mpr fun hok => hmismatch ((checksumOk_iff w).mp hok)
  rw [exec_edge_of_spelledWord s x w h33 hread hheader hfirst hspell, decodeAndPublish_of_dropped keymap w _ hbad]
  rfl

/-- Settles O11: the gap that spells no bit leaves no word to decode, wherever it stands. -/
theorem edgeDropsFrameWithBadTiming : Obligations.EdgeDropsFrameWithBadTiming := by
  intro s x k h33 hread hgaps hfirst hk hnot0 hnot1
  have hmem : dt (x (k + 2)) (x (k + 1)) ∈ (List.range' 0 32).map fun j => dt (x (j + 2)) (x (j + 1)) :=
    List.mem_map.mpr ⟨k, List.mem_range'_1.mpr (by omega), rfl⟩
  rw [exec_edge_of_full s x h33 hread hgaps hfirst,
    assembleWord_of_unclassified 0 _ _ hmem (classifyGap_of_spellsNoBit _ hnot0 hnot1)]
  rfl

/-! ### DECODE and REPEAT as rows (R116 to R121) -/

theorem exec_decode (ncmd cmd naddr addr : Byte) (s : State) :
    exec (.decode ncmd cmd naddr addr) s = .next (acceptWord (ncmd ++ cmd ++ naddr ++ addr) s.begin).2 := rfl

theorem exec_repeatCode (g : Gap) (s : State) : exec (.repeatCode g) s = .next (emitRepeat s.begin).2 := rfl

/-- The row that a frame word decodes to is DECODE over that word. -/
theorem exec_decodeFrameWord (w : BitVec 32) (s : State) :
    exec (decodeFrameWord w) s = .next (acceptWord w s.begin).2 := by
  rw [decodeFrameWord, exec_decode, bytes_append]

theorem acceptWord_of_accepted (w : BitVec 32) (s : State) (h : checksumOk w = true) :
    acceptWord w s = (true, ((s.setAcc 0).recordDecode (frameAddress w) (frameCommand w)).emit
      (.frame (frameAddress w) (frameCommand w) .normal)) := if_pos h

theorem acceptWord_of_dropped (w : BitVec 32) (s : State) (h : checksumOk w = false) :
    acceptWord w s = (false, (s.setAcc 0).dropFrame .checksumFail) := if_neg (by simp [h])

theorem frameAddress_append (ncmd cmd naddr addr : Byte) : frameAddress (ncmd ++ cmd ++ naddr ++ addr) = addr :=
  byte0_append ncmd cmd naddr addr

theorem frameCommand_append (ncmd cmd naddr addr : Byte) : frameCommand (ncmd ++ cmd ++ naddr ++ addr) = cmd :=
  byte2_append ncmd cmd naddr addr

/-- The checksum of a word given by its bytes. -/
theorem checksumOk_append_iff (ncmd cmd naddr addr : Byte) :
    checksumOk (ncmd ++ cmd ++ naddr ++ addr) = true ↔ addr = ~~~ naddr ∧ cmd = ~~~ ncmd := by
  rw [checksumOk_iff, frameAddress_append, frameCommand_append, frameNaddr, byte1_append, frameNcmd, byte3_append]

/-- Settles O16: the word is accepted exactly when the bytes are complements, and its fields are the bytes. -/
theorem decodeAcceptsComplementedWords : Obligations.DecodeAcceptsComplementedWords := by
  intro s ncmd cmd naddr addr
  constructor
  · intro hmatch
    rw [exec_decode, acceptWord_of_accepted _ _ ((checksumOk_append_iff ncmd cmd naddr addr).mpr hmatch),
      frameAddress_append, frameCommand_append]
    rfl
  · intro hmismatch
    have hbad : checksumOk (ncmd ++ cmd ++ naddr ++ addr) = false :=
      Bool.eq_false_iff.mpr fun hok => hmismatch ((checksumOk_append_iff ncmd cmd naddr addr).mp hok)
    rw [exec_decode, acceptWord_of_dropped _ _ hbad]
    rfl

/-- Settles O17: LAST_VALID alone decides whether the pair is emitted. -/
theorem repeatReplaysLastPair : Obligations.RepeatReplaysLastPair := by
  intro s g
  rw [exec_repeatCode]
  rcases emitRepeat_cases s.begin with ⟨hvalid, heq⟩ | ⟨hempty, heq⟩
  · exact ⟨fun _ => by rw [heq]; rfl, fun h => absurd (h.symm.trans hvalid) (by decide)⟩
  · exact ⟨fun h => absurd (h.symm.trans hempty) (by decide), fun _ => by rw [heq]⟩

/-! ### The data symbols as rows (R112 to R114) -/

theorem exec_symBit0 (g : Gap) (s : State) :
    exec (.symBit0 g) s = .next (s.begin.setAcc (shiftInBit s.work.acc false)) := rfl

theorem exec_symBit1 (g : Gap) (s : State) :
    exec (.symBit1 g) s = .next (s.begin.setAcc (shiftInBit s.work.acc true)) := rfl

/-- Settles O19: both rows shift their bit into the working word. -/
theorem bitSymbolsShiftIntoWord : Obligations.BitSymbolsShiftIntoWord := by
  intro s g
  exact ⟨⟨_, exec_symBit0 g s, shiftInBit_top _ _, shiftInBit_below _ _⟩,
    ⟨_, exec_symBit1 g s, shiftInBit_top _ _, shiftInBit_below _ _⟩⟩

/-- Settles O22. -/
theorem badSymbolDropsFrame : Obligations.BadSymbolDropsFrame := fun _ _ => rfl

/-- The symbol row of a gap that spells a bit shifts that bit into the working word. -/
theorem exec_decodeDataGap_of_classified (g : Gap) (b : Bool) (s : State) (h : classifyGap g = some b) :
    exec (decodeDataGap g) s = .next (s.begin.setAcc (shiftInBit s.work.acc b)) := by
  have hspell := spellsBit_of_classifyGap b g h
  cases b with
  | false =>
    rw [decodeDataGap_of_bit0 g ((isBit0_eq_withinTolerance g).symm.trans ((isBit0_iff g).mpr hspell)), exec_symBit0]
  | true =>
    rw [decodeDataGap_of_bit1 g ((isBit1_eq_withinTolerance g).symm.trans ((isBit1_iff g).mpr hspell)), exec_symBit1]

theorem applyAll_cons_next (i : Instr) (rest : List Instr) (s t : State) (h : exec i s = .next t) :
    applyAll (i :: rest) s = applyAll rest t := by
  rw [applyAll, h]

/-- The symbol rows of good gaps assemble in the working word what the gaps assemble to, and touch no register. -/
theorem applyAll_dataGaps (gs : List Gap) (s : State) (w : BitVec 32) (h : assembleWord s.work.acc gs = some w) :
    ∃ t, applyAll (gs.map decodeDataGap) s = .next t ∧ t.work.acc = w ∧ SameBlock s t := by
  induction gs generalizing s with
  | nil => exact ⟨s, rfl, Option.some.inj h, rfl, rfl, rfl, rfl⟩
  | cons g rest ih =>
    obtain ⟨b, hb, hrest⟩ := assembleWord_cons_some _ w g rest h
    obtain ⟨t, hrun, hacc, hblock⟩ := ih (s.begin.setAcc (shiftInBit s.work.acc b)) hrest
    refine ⟨t, ?_, hacc, hblock⟩
    rw [List.map_cons, applyAll_cons_next _ _ s _ (exec_decodeDataGap_of_classified g b s hb), hrun]

/-- The row DECODE leaves the buffer and the workflow, and does to LAST_* what EDGE's decode of the word does. -/
theorem acceptWord_agrees (m : KeyMap) (w : BitVec 32) (s t : State) (h : t.decoder = s.decoder) :
    (acceptWord w t).2.decoder = (decodeAndPublish m (some w) s).decoder ∧
      (acceptWord w t).2.capture = t.capture ∧ (acceptWord w t).2.workflow = t.workflow := by
  cases hok : checksumOk w with
  | true =>
    rw [acceptWord_of_accepted w t hok, decodeAndPublish_of_accepted m w s hok]
    exact ⟨rfl, rfl, rfl⟩
  | false =>
    rw [acceptWord_of_dropped w t hok, decodeAndPublish_of_dropped m w s hok]
    exact ⟨h, rfl, rfl⟩

/-- Settles O21: the symbol rows leave the word and the registers as EDGE's decode finds them. -/
theorem symbolStepsAgreeWithEdgeDecode : Obligations.SymbolStepsAgreeWithEdgeDecode := by
  intro s gs w _ hempty hw
  rw [← hempty] at hw
  obtain ⟨t, hrun, hacc, hblock⟩ := applyAll_dataGaps gs s w hw
  have ⟨hcapture, hdecoder, _, hworkflow⟩ := hblock
  obtain ⟨hdec, hcap, hwork⟩ := acceptWord_agrees keymap w s t.begin hdecoder
  exact ⟨t, (acceptWord w t.begin).2, hrun, hacc, hblock, exec_decodeFrameWord w t, hdec, hcap.trans hcapture,
    hwork.trans hworkflow⟩

end Sys2Proof.Machine
end

section
/-! PROOFS. The family 42_keys_mailbox.md. What the two operations of the mailbox write and answer: PUBLISH (R133) and
MBOX_TAKE (R135). -/

namespace Sys2Proof.Machine

open Sys2Proof.Safety

/-! ### PUBLISH overwrites (R133) -/

theorem exec_publish (k : LogicalKey) (s : State) : exec (.publish k) s = .next (s.begin.publishKey k) := rfl

/-- A publish replaces the whole mailbox and adds one event; what was pending is not read. -/
theorem State.publishKey_eq (k : LogicalKey) (s : State) : s.publishKey k = { s with
    mailbox := { pressed := true, key := codeOfKey k }
    port := { s.port with events := s.port.events ++ [.keyPublished k] } } := rfl

/-- Settles O26: an operation begins with no events, so KeyPublished is the only one. -/
theorem publishOverwritesMailbox : Obligations.PublishOverwritesMailbox := by
  intro s k
  rw [exec_publish, State.publishKey_eq, State.begin_port, List.nil_append]

/-! ### MBOX_TAKE returns what the mailbox holds (R135) -/

/-- Where a pending key is a logical key, a take returns MB_KEY as it is, pending or not. -/
theorem takenCode_of_mailboxInv (m : Mailbox) (h : MailboxInv m) : takenCode m = m.key := by
  cases hp : m.pressed with
  | false => exact takenCode_empty m hp
  | true =>
    obtain ⟨k, hk⟩ := h hp
    exact takenCode_codeOfKey m k hk

/-- Settles O27: the invariant makes the returned code MB_KEY itself. -/
theorem takeReturnsAndEmptiesMailbox : Obligations.TakeReturnsAndEmptiesMailbox := by
  intro s hinv
  rw [exec_mboxTake, takenCode_of_mailboxInv s.mailbox hinv]
  rfl

end Sys2Proof.Machine
end

section
/-! PROOFS. The family 43_workflow.md. The transition table of R176 as equations, what POLL, PREP_DONE, SCHED_CFG and
the key rows answer for a line of it (R151, R169 to R178), and which rows can leave Waiting and Brewing (R162 to R166). -/

namespace Sys2Proof.Machine

/-! ### The lines of the transition table (R176) -/

theorem transition_initialScreen_play : transition .initialScreen (.key .play) = (.selectCups, none) := rfl

theorem transition_initialScreen_other (k : LogicalKey) (h : k ≠ .play) :
    transition .initialScreen (.key k) = (.initialScreen, none) := if_neg h

theorem transition_selectCups_digit0 : transition .selectCups (.key .digit0) = (.initialScreen, none) := rfl

theorem transition_selectCups_cups (k : LogicalKey) (n : BitVec 3)
    (h : (k, n) ∈ [(LogicalKey.digit1, (1 : BitVec 3)), (.digit2, 2), (.digit3, 3), (.digit4, 4), (.digit5, 5)]) :
    transition .selectCups (.key k) = (.scheduleOrNow n, none) := by
  simp only [List.mem_cons, List.not_mem_nil, Prod.mk.injEq, or_false] at h
  rcases h with ⟨rfl, rfl⟩ | ⟨rfl, rfl⟩ | ⟨rfl, rfl⟩ | ⟨rfl, rfl⟩ | ⟨rfl, rfl⟩ <;> rfl

theorem cupsOfKey_eq_none (k : LogicalKey) (h : k ∉ [LogicalKey.digit0, .digit1, .digit2, .digit3, .digit4, .digit5]) :
    cupsOfKey k = none := by
  cases k with
  | digit1 | digit2 | digit3 | digit4 | digit5 => exact absurd (by decide) h
  | _ => rfl

theorem transition_selectCups_other (k : LogicalKey)
    (h : k ∉ [LogicalKey.digit0, .digit1, .digit2, .digit3, .digit4, .digit5]) :
    transition .selectCups (.key k) = (.selectCups, some .reportInvalid) := by
  have h0 : k ≠ .digit0 := fun hk => h (hk ▸ List.mem_cons_self)
  rw [transition, selectCupsKey, if_neg h0, cupsOfKey_eq_none k h]

theorem transition_scheduleOrNow_digit1 (c : BitVec 3) :
    transition (.scheduleOrNow c) (.key .digit1) = (.brewing c .now, some (.startPreparation c .now)) := rfl

theorem transition_scheduleOrNow_digit2 (c : BitVec 3) :
    transition (.scheduleOrNow c) (.key .digit2) = (.scheduling c, some .startScheduleConfig) := rfl

theorem transition_scheduleOrNow_other (c : BitVec 3) (k : LogicalKey) (h1 : k ≠ .digit1) (h2 : k ≠ .digit2) :
    transition (.scheduleOrNow c) (.key k) = (.scheduleOrNow c, none) := (if_neg h1).trans (if_neg h2)

/-- No key is a transition of Brewing, Scheduling and Waiting. -/
theorem transition_key_of_not_takesKey (w : WorkflowState) (k : LogicalKey) (h : w.takesKey = false) :
    transition w (.key k) = (w, none) := by
  cases w with
  | initialScreen | selectCups | scheduleOrNow => cases h
  | brewing | scheduling | waiting => rfl

/-- The clock is a transition of Waiting only. -/
theorem transition_clockTick_of_not_waiting (w : WorkflowState) (now : Time4) (h : ∀ c tgt, w ≠ .waiting c tgt) :
    transition w (.clockTick now) = (w, none) := by
  cases w with
  | waiting c tgt => exact absurd rfl (h c tgt)
  | initialScreen | selectCups | scheduleOrNow | brewing | scheduling => rfl

theorem isReached_iff (tgt now : Time4) :
    isReached tgt now = true ↔
      now.day = tgt.day ∧ now.month = tgt.month ∧ now.hour = tgt.hour ∧ now.minute = tgt.minute := by
  simp only [isReached, Bool.and_eq_true, decide_eq_true_eq, and_assoc, @eq_comm Byte]

theorem eq_of_isReached (tgt now : Time4) (h : isReached tgt now = true) : now = tgt := by
  obtain ⟨hday, hmonth, hhour, hminute⟩ := (isReached_iff tgt now).mp h
  cases now
  cases tgt
  simp_all

theorem transition_waiting_reached (c : BitVec 3) (tgt now : Time4) (h : isReached tgt now = true) :
    transition (.waiting c tgt) (.clockTick now) =
      (.brewing c .scheduled, some (.startPreparation c .scheduled)) := if_pos h

theorem transition_waiting_not_reached (c : BitVec 3) (tgt now : Time4) (h : ¬ isReached tgt now = true) :
    transition (.waiting c tgt) (.clockTick now) = (.waiting c tgt, none) := if_neg h

/-! ### A line of the table as register writes and an event (R150) -/

/-- A transition writes the image of its state and adds its effect, if it has one, to the events. -/
theorem applyEvent_of_transition (w w' : WorkflowState) (e : WorkflowEvent) (o : Option Event) (s : State)
    (ht : transition w e = (w', o)) :
    applyEvent w e s =
      { s with workflow := imageOf w', port := { s.port with events := s.port.events ++ o.toList } } := by
  rw [applyEvent, ht]
  cases o with
  | none => simp [State.setWorkflow]
  | some _ => rfl

theorem workflow_of_view (s : State) (w : WorkflowState) (hv : s.view = .live w) : imageOf w = s.workflow :=
  (viewOf_live s.workflow w hv).2.symm

/-! ### The key rows (R178) -/

theorem exec_ofKey_of_transition (s : State) (k : LogicalKey) (w w' : WorkflowState) (o : Option Event)
    (hv : s.view = .live w) (ht : transition w (.key k) = (w', o)) :
    exec (Instr.ofKey k) s =
      .next { s.begin with workflow := imageOf w', port := { s.begin.port with events := o.toList } } := by
  rw [exec_ofKey, keyEvent_of_live k s w hv, applyEvent_of_transition w w' _ o _ ht]
  rfl

/-- A key that leaves the state where it is writes no register. -/
theorem exec_ofKey_of_stay (s : State) (k : LogicalKey) (w : WorkflowState) (o : Option Event)
    (hv : s.view = .live w) (ht : transition w (.key k) = (w, o)) :
    exec (Instr.ofKey k) s = .next { s.begin with port := { s.begin.port with events := o.toList } } := by
  rw [exec_ofKey_of_transition s k w w o hv ht, workflow_of_view s w hv]
  rfl

theorem exec_ofKey_of_not_takesKey (s : State) (k : LogicalKey) (w : WorkflowState) (hv : s.view = .live w)
    (htakes : w.takesKey = false) : exec (Instr.ofKey k) s = .next s.begin :=
  exec_ofKey_of_stay s k w none hv (transition_key_of_not_takesKey w k htakes)

theorem exec_ofKey_of_notAState (s : State) (k : LogicalKey) (hv : s.view = .notAState) :
    exec (Instr.ofKey k) s = .next s.begin := by
  rw [exec_ofKey, keyEvent, hv]

/-- Settles O41: clause by clause the line of the table for the key and the state. -/
theorem keyRowsFollowDispatchTable : Obligations.KeyRowsFollowDispatchTable := by
  intro s k
  refine ⟨fun hv => ?_, fun hv hk => ?_, fun n hv hk => ?_, fun hv hk => ?_, fun c hv => ⟨fun hk => ?_, fun hk => ?_,
    fun h1 h2 => ?_⟩, fun hv => ?_⟩
  · by_cases hk : k = .play
    · subst hk
      exact exec_ofKey_of_transition s .play _ _ _ hv transition_initialScreen_play
    · rw [if_neg hk]
      exact exec_ofKey_of_transition s k _ _ _ hv (transition_initialScreen_other k hk)
  · subst hk
    exact exec_ofKey_of_transition s .digit0 _ _ _ hv transition_selectCups_digit0
  · exact exec_ofKey_of_transition s k _ _ _ hv (transition_selectCups_cups k n hk)
  · exact exec_ofKey_of_stay s k _ _ hv (transition_selectCups_other k hk)
  · subst hk
    exact exec_ofKey_of_transition s .digit1 _ _ _ hv (transition_scheduleOrNow_digit1 c)
  · subst hk
    exact exec_ofKey_of_transition s .digit2 _ _ _ hv (transition_scheduleOrNow_digit2 c)
  · exact exec_ofKey_of_stay s k _ _ hv (transition_scheduleOrNow_other c k h1 h2)
  · rcases hv with hv | ⟨c, hv | ⟨m, hv⟩ | ⟨tgt, hv⟩⟩
    · exact exec_ofKey_of_notAState s k hv
    · exact exec_ofKey_of_not_takesKey s k _ hv rfl
    · exact exec_ofKey_of_not_takesKey s k _ hv rfl
    · exact exec_ofKey_of_not_takesKey s k _ hv rfl

/-! ### POLL in the key-driven states (R152 to R160) -/

/-- The take and the dispatch of R152, with the key row standing for the dispatch. -/
theorem exec_poll_of_pending (s : State) (now : Time4) (w : WorkflowState) (k : LogicalKey) (hv : s.view = .live w)
    (htakes : w.takesKey = true) (hp : s.mailbox.pressed = true) (hk : s.mailbox.key = codeOfKey k) :
    exec (.poll now) s = exec (Instr.ofKey k) s.clearPressed := by
  rw [exec_ofKey]
  have hpoll := execPoll_of_pending now s w hv htakes hp
  rw [hk, keyOfCode_codeOfKey] at hpoll
  exact hpoll

/-- Settles O36. -/
theorem pollIsTakeThenKeyRow : Obligations.PollIsTakeThenKeyRow := by
  intro s now w k hv hdriven hp hk
  exact exec_poll_of_pending s now w k hv (w.takesKey_of_keyDriven hdriven) hp hk

theorem exec_poll_of_empty (s : State) (now : Time4) (w : WorkflowState) (hv : s.view = .live w)
    (htakes : w.takesKey = true) (hp : s.mailbox.pressed = false) : exec (.poll now) s = .next s.begin := by
  have hpoll := execPoll_of_live now s w hv
  rw [pollLive_of_takesKey w now _ htakes, State.begin_mailbox, hp, State.clearPressed_of_empty s.begin hp] at hpoll
  exact hpoll

/-- Settles O29: POLL is the key's row after the take, and in InitialScreen only PLAY is answered. -/
theorem pollInInitialScreen : Obligations.PollInInitialScreen := by
  intro s now hv
  refine ⟨fun hp hk => ?_, fun k hp hk hne => ?_, fun hp => exec_poll_of_empty s now _ hv rfl hp⟩
  · rw [exec_poll_of_pending s now _ _ hv rfl hp hk]
    exact exec_ofKey_of_transition s.clearPressed _ _ _ _ hv transition_initialScreen_play
  · rw [exec_poll_of_pending s now _ _ hv rfl hp hk]
    exact exec_ofKey_of_stay s.clearPressed _ _ _ hv (transition_initialScreen_other k hne)

/-- Settles O30: POLL is the key's row after the take, for the three kinds of key in SelectCups. -/
theorem pollInSelectCups : Obligations.PollInSelectCups := by
  intro s now hv
  refine ⟨fun hp hk => ?_, fun k n hmem hp hk => ?_, fun k hmem hp hk => ?_,
    fun hp => exec_poll_of_empty s now _ hv rfl hp⟩
  · rw [exec_poll_of_pending s now _ _ hv rfl hp hk]
    exact exec_ofKey_of_transition s.clearPressed _ _ _ _ hv transition_selectCups_digit0
  · rw [exec_poll_of_pending s now _ _ hv rfl hp hk]
    exact exec_ofKey_of_transition s.clearPressed _ _ _ _ hv (transition_selectCups_cups k n hmem)
  · rw [exec_poll_of_pending s now _ _ hv rfl hp hk]
    exact exec_ofKey_of_stay s.clearPressed _ _ _ hv (transition_selectCups_other k hmem)

/-- Settles O31: POLL is the key's row after the take, for the three kinds of key in ScheduleOrNow. -/
theorem pollInScheduleOrNow : Obligations.PollInScheduleOrNow := by
  intro s now c hv
  refine ⟨fun hp hk => ?_, fun hp hk => ?_, fun k h1 h2 hp hk => ?_,
    fun hp => exec_poll_of_empty s now _ hv rfl hp⟩
  · rw [exec_poll_of_pending s now _ _ hv rfl hp hk]
    exact exec_ofKey_of_transition s.clearPressed _ _ _ _ hv (transition_scheduleOrNow_digit1 c)
  · rw [exec_poll_of_pending s now _ _ hv rfl hp hk]
    exact exec_ofKey_of_transition s.clearPressed _ _ _ _ hv (transition_scheduleOrNow_digit2 c)
  · rw [exec_poll_of_pending s now _ _ hv rfl hp hk]
    exact exec_ofKey_of_stay s.clearPressed _ _ _ hv (transition_scheduleOrNow_other c k h1 h2)

/-! ### POLL in the other states (R161 to R168) -/

theorem exec_poll_of_tick (s : State) (now : Time4) (w w' : WorkflowState) (o : Option Event) (hv : s.view = .live w)
    (htakes : w.takesKey = false) (ht : transition w (.clockTick now) = (w', o)) :
    exec (.poll now) s =
      .next { s.begin with workflow := imageOf w', port := { s.begin.port with events := o.toList } } := by
  have hpoll := execPoll_of_live now s w hv
  rw [pollLive, htakes, if_neg Bool.false_ne_true, applyEvent_of_transition w w' _ o _ ht] at hpoll
  exact hpoll

theorem exec_poll_of_stay (s : State) (now : Time4) (w : WorkflowState) (hv : s.view = .live w)
    (htakes : w.takesKey = false) (ht : transition w (.clockTick now) = (w, none)) :
    exec (.poll now) s = .next s.begin := by
  rw [exec_poll_of_tick s now w w none hv htakes ht, workflow_of_view s w hv]
  rfl

/-- Settles O32: neither state takes a key, and the clock is no transition of theirs. -/
theorem pollInBrewingAndScheduling : Obligations.PollInBrewingAndScheduling := by
  intro s now c m hv
  rcases hv with hv | hv
  · exact exec_poll_of_stay s now _ hv rfl (transition_clockTick_of_not_waiting _ now nofun)
  · exact exec_poll_of_stay s now _ hv rfl (transition_clockTick_of_not_waiting _ now nofun)

/-- Settles O33: REACHED is the equality of the four fields, and the clock's transition follows it. -/
theorem pollInWaiting : Obligations.PollInWaiting := by
  intro s now tgt c hv
  rw [← isReached_iff]
  constructor
  · intro hreached
    exact exec_poll_of_tick s now _ _ _ hv rfl (transition_waiting_reached c tgt now hreached)
  · intro hreached
    exact exec_poll_of_stay s now _ hv rfl (transition_waiting_not_reached c tgt now hreached)

theorem pollLive_congr_now (w : WorkflowState) (now now' : Time4) (s : State) (h : ∀ c tgt, w ≠ .waiting c tgt) :
    pollLive w now s = pollLive w now' s := by
  simp only [pollLive, applyEvent, transition_clockTick_of_not_waiting w _ h]

/-- Settles O35: only the live state's clock transition reads the operand, and only Waiting has one. -/
theorem pollIgnoresClockOutsideWaiting : Obligations.PollIgnoresClockOutsideWaiting := by
  intro s now now' hne
  change execPoll now s = execPoll now' s
  rw [execPoll, execPoll]
  cases hv : s.view with
  | live w => exact congrArg _ (pollLive_congr_now w now now' s.begin fun c tgt hw => hne c tgt (hw ▸ hv))
  | notAState | outsideInvariant => rfl

/-! ### PREP_DONE and SCHED_CFG (R169 to R174) -/

theorem exec_prepDone_of_brewing (s : State) (c : BitVec 3) (m : Mode) (hv : s.view = .live (.brewing c m)) :
    exec .prepDone s = .next (s.begin.clearPressed.setWorkflow WorkflowRegs.initial) := by
  change execPrepDone s = _
  rw [execPrepDone, hv]
  rfl

theorem exec_prepDone_of_not_brewing (s : State) (w : WorkflowState) (hv : s.view = .live w)
    (hne : ∀ c m, w ≠ .brewing c m) : exec .prepDone s = .next s.begin := by
  change execPrepDone s = _
  rw [execPrepDone, hv]
  cases w with
  | brewing c m => exact absurd rfl (hne c m)
  | initialScreen | selectCups | scheduleOrNow | scheduling | waiting => rfl

theorem exec_prepDone_of_notAState (s : State) (hv : s.view = .notAState) : exec .prepDone s = .next s.begin := by
  change execPrepDone s = _
  rw [execPrepDone, hv]

/-- Settles O37: Brewing's image has no other register to clear than WS, CUPS and MODE. -/
theorem prepDoneReturnsToInitialScreen : Obligations.PrepDoneReturnsToInitialScreen := by
  refine ⟨fun s c m hv => ?_, exec_prepDone_of_not_brewing, exec_prepDone_of_notAState⟩
  rw [exec_prepDone_of_brewing s c m hv, ← workflow_of_view s _ hv]
  rfl

theorem exec_schedCfg_of_scheduling (s : State) (c : BitVec 3) (time : Time4) (valid : Bool)
    (hv : s.view = .live (.scheduling c)) :
    exec (.schedCfg time valid) s =
      .next (s.begin.clearPressed.setWorkflow (imageOf (if valid then .waiting c time else .initialScreen))) := by
  change execSchedCfg time valid s = _
  rw [execSchedCfg, hv]
  rfl

theorem exec_schedCfg_of_not_scheduling (s : State) (w : WorkflowState) (time : Time4) (valid : Bool)
    (hv : s.view = .live w) (hne : ∀ c, w ≠ .scheduling c) : exec (.schedCfg time valid) s = .next s.begin := by
  change execSchedCfg time valid s = _
  rw [execSchedCfg, hv]
  cases w with
  | scheduling c => exact absurd rfl (hne c)
  | initialScreen | selectCups | scheduleOrNow | brewing | waiting => rfl

theorem exec_schedCfg_of_notAState (s : State) (time : Time4) (valid : Bool) (hv : s.view = .notAState) :
    exec (.schedCfg time valid) s = .next s.begin := by
  change execSchedCfg time valid s = _
  rw [execSchedCfg, hv]

/-- Settles O38: the flag alone decides, and Scheduling's image has no other register to clear than WS and CUPS. -/
theorem schedCfgEntersWaitingOrReturns : Obligations.SchedCfgEntersWaitingOrReturns := by
  refine ⟨fun s c time hv => ⟨exec_schedCfg_of_scheduling s c time true hv, ?_⟩, exec_schedCfg_of_not_scheduling,
    exec_schedCfg_of_notAState⟩
  rw [exec_schedCfg_of_scheduling s c time false hv, ← workflow_of_view s _ hv]
  rfl

/-! ### WS 6 and 7, and NOP (R168, R175) -/

theorem view_of_ws_reserved (s : State) (h : s.workflow.ws = 6 ∨ s.workflow.ws = 7) : s.view = .notAState := by
  have hsel : selectedState s.workflow = none := by
    rcases h with h | h <;> simp [selectedState, h]
  rw [State.view_eq, viewOf, hsel]

theorem exec_poll_of_notAState (s : State) (now : Time4) (hv : s.view = .notAState) :
    exec (.poll now) s = .next (s.begin.setWorkflow WorkflowRegs.initial) := by
  change execPoll now s = _
  rw [execPoll, hv]

/-- Settles O34: WS alone makes the image no state's, and each of the three operations has its answer to that. -/
theorem pollDefensiveReset : Obligations.PollDefensiveReset := by
  intro s now time valid hws
  have hv := view_of_ws_reserved s hws
  exact ⟨exec_poll_of_notAState s now hv, exec_prepDone_of_notAState s hv, exec_schedCfg_of_notAState s time valid hv⟩

/-- Settles O39. -/
theorem nopChangesNothing : Obligations.NopChangesNothing := fun _ => rfl

/-! ### What leaves Waiting and Brewing (R162, R164 to R166) -/

/-- The rows that can write the workflow registers when they answer a next state; every other row leaves them. -/
inductive WorkflowRowEffect (i : Instr) (s t : State) : Prop where
  | unchanged (h : t.workflow = s.workflow)
  | poll (now : Time4) (hi : i = .poll now)
  | prepDone (hi : i = .prepDone)
  | schedCfg (time : Time4) (valid : Bool) (hi : i = .schedCfg time valid)
  | key (k : LogicalKey) (h : exec (Instr.ofKey k) s = .next t)
  | reset (hi : i = .reset)

theorem exec_workflowRowEffect (i : Instr) (s t : State) (h : exec i s = .next t) : WorkflowRowEffect i s t := by
  have hkey : ∀ k, keyEvent k s = .next t → WorkflowRowEffect i s t := fun k hk => .key k (exec_ofKey k s ▸ hk)
  cases i with
  | poll now => exact .poll now rfl
  | prepDone => exact .prepDone rfl
  | schedCfg time valid => exact .schedCfg time valid rfl
  | reset => exact .reset rfl
  | edge stamp => exact .unchanged (execEdge_effect stamp s t h).workflow
  | symStale g => exact .unchanged (execSymStale_effect g s t h).workflow
  | decode ncmd cmd naddr addr => exact .unchanged (execDecode_effect ncmd cmd naddr addr s t h).workflow
  | repeatCode g => exact .unchanged (execRepeatCode_effect g s t h).workflow
  | nop | mboxTake | validate | reached | resolve | publish | symBit0 | symBit1 | symBad =>
    obtain rfl := Host.Outcome.next.inj h
    exact .unchanged rfl
  | keyDigit0 | keyDigit1 | keyDigit2 | keyDigit3 | keyDigit4 | keyDigit5 | keyDigit6 | keyDigit7 | keyDigit8
  | keyDigit9 | keyPower | keyMenu | keyTest | keyPlus | keyMinus | keyBack | keyPrevious | keyPlay | keyNext
  | keyClear | keyUnrecognized =>
    exact hkey _ h

/-- A row that only begins leaves the workflow registers. -/
theorem workflow_of_next_begin (o : Host.Outcome State Fault Refusal) (s t : State) (ho : o = .next s.begin)
    (h : o = .next t) : t.workflow = s.workflow := by
  obtain rfl := Host.Outcome.next.inj (ho.symm.trans h)
  rfl

/-- Settles O45: of the rows that can write the workflow registers only PREP_DONE does so in Brewing. -/
theorem brewingLeftOnlyByPrepDone : Obligations.BrewingLeftOnlyByPrepDone := by
  intro i s t c m hv hne h
  cases exec_workflowRowEffect i s t h with
  | unchanged h => exact .inl h
  | poll now hi =>
    subst hi
    exact .inl (workflow_of_next_begin _ s t (pollInBrewingAndScheduling s now c m (.inl hv)) h)
  | prepDone hi =>
    subst hi
    obtain rfl := Host.Outcome.next.inj ((exec_prepDone_of_brewing s c m hv).symm.trans h)
    exact .inr ⟨rfl, viewOf_imageOf .initialScreen rfl⟩
  | schedCfg time valid hi =>
    subst hi
    exact .inl (workflow_of_next_begin _ s t (exec_schedCfg_of_not_scheduling s _ time valid hv nofun) h)
  | key k h => exact .inl (workflow_of_next_begin _ s t (exec_ofKey_of_not_takesKey s k _ hv rfl) h)
  | reset hi => exact absurd hi hne

/-- Settles O44: of the rows that can write the workflow registers only POLL does so in Waiting, on the target. -/
theorem waitingLeftOnlyByMatchingTick : Obligations.WaitingLeftOnlyByMatchingTick := by
  intro i s t c tgt hv hne h
  cases exec_workflowRowEffect i s t h with
  | unchanged h => exact .inl h
  | poll now hi =>
    subst hi
    by_cases hreached : isReached tgt now = true
    · have hpoll := exec_poll_of_tick s now _ _ _ hv rfl (transition_waiting_reached c tgt now hreached)
      obtain rfl := Host.Outcome.next.inj (hpoll.symm.trans h)
      obtain rfl := eq_of_isReached tgt now hreached
      obtain ⟨hlegal, _⟩ := viewOf_live s.workflow _ hv
      exact .inr ⟨rfl, viewOf_imageOf (.brewing c .scheduled) hlegal, rfl⟩
    · have hpoll := exec_poll_of_stay s now _ hv rfl (transition_waiting_not_reached c tgt now hreached)
      exact .inl (workflow_of_next_begin _ s t hpoll h)
  | prepDone hi =>
    subst hi
    exact .inl (workflow_of_next_begin _ s t (exec_prepDone_of_not_brewing s _ hv nofun) h)
  | schedCfg time valid hi =>
    subst hi
    exact .inl (workflow_of_next_begin _ s t (exec_schedCfg_of_not_scheduling s _ time valid hv nofun) h)
  | key k h => exact .inl (workflow_of_next_begin _ s t (exec_ofKey_of_not_takesKey s k _ hv rfl) h)
  | reset hi => exact absurd hi hne

end Sys2Proof.Machine
end

section
/-! PROOFS. The family 44_schedule_gate.md. The order VALIDATE decides, field by field and as one packed number (R190,
R192, R193), and the equality REACHED decides (R191). -/

namespace Sys2Proof.Machine

open Sys2Proof.Safety

/-! ### The lexicographic order of bytes (R8) and the packed order (R190) -/

theorem lexGT_cons_iff (a b : Byte) (as bs : List Nat) :
    lexGT (a.toNat :: as) (b.toNat :: bs) = true ↔ b.toNat < a.toNat ∨ (a = b ∧ lexGT as bs = true) := by
  by_cases heq : a = b
  · simp [lexGT, heq]
  · simp [lexGT, heq, BitVec.toNat_inj]

theorem lexGT_nil : lexGT [] [] = false := rfl

theorem lexGT_cons_of_lt (a b : Nat) (as bs : List Nat) (h : a < b) : lexGT (a :: as) (b :: bs) = false := by
  rw [lexGT, if_neg h.ne, decide_eq_false h.not_gt]

/-- The bytes written behind the number `acc`, 8 bits each, the first byte highest. -/
def packBytes (acc : Nat) : List Byte → Nat
  | [] => acc
  | x :: xs => packBytes (acc * 2 ^ 8 + x.toNat) xs

/-- Packed numbers of equally many bytes compare by what stands in front, then by the bytes in order: a byte is below
2^8, so no later byte makes up for a smaller earlier one. -/
theorem packBytes_lt_iff (xs ys : List Byte) (a b : Nat) (hlen : xs.length = ys.length) :
    packBytes b ys < packBytes a xs ↔
      b < a ∨ (a = b ∧ lexGT (xs.map BitVec.toNat) (ys.map BitVec.toNat) = true) := by
  induction xs generalizing ys a b with
  | nil =>
    obtain rfl := List.length_eq_zero_iff.mp hlen.symm
    simp [packBytes, lexGT_nil]
  | cons x xs ih =>
    cases ys with
    | nil => cases hlen
    | cons y ys =>
      have hlt : b * 2 ^ 8 + y.toNat < a * 2 ^ 8 + x.toNat ↔ b < a ∨ (a = b ∧ y.toNat < x.toNat) := by omega
      have heq : a * 2 ^ 8 + x.toNat = b * 2 ^ 8 + y.toNat ↔ a = b ∧ x = y := by
        rw [← BitVec.toNat_inj]
        omega
      rw [packBytes, packBytes, ih ys _ _ (Nat.succ.inj hlen), List.map_cons, List.map_cons, lexGT_cons_iff, hlt, heq,
        and_assoc, or_assoc, ← and_or_left]

/-! ### VALIDATE (R190, R192, R193) -/

theorem exec_validate (target current : Time4) (s : State) :
    exec (.validate target current) s = .next (s.begin.answer (.later (isLater target current))) := rfl

/-- The four fields in VALIDATE's priority: month, day, hour, minute. -/
def gateBytes (t : Time4) : List Byte := [t.month, t.day, t.hour, t.minute]

theorem gateFields_eq_map (t : Time4) : gateFields t = (gateBytes t).map BitVec.toNat := rfl

theorem packBytes_gateBytes (t : Time4) :
    packBytes 0 (gateBytes t) =
      t.month.toNat * 2 ^ 24 + t.day.toNat * 2 ^ 16 + t.hour.toNat * 2 ^ 8 + t.minute.toNat := by
  simp only [gateBytes, packBytes]
  omega

theorem isLater_iff_fields (t c : Time4) :
    isLater t c = true ↔ c.month.toNat < t.month.toNat ∨ (t.month = c.month ∧ (c.day.toNat < t.day.toNat ∨
      (t.day = c.day ∧ (c.hour.toNat < t.hour.toNat ∨ (t.hour = c.hour ∧ c.minute.toNat < t.minute.toNat))))) := by
  simp only [isLater, gateFields, lexGT_cons_iff, lexGT_nil, Bool.false_eq_true, and_false, or_false]

theorem isLater_iff_packed (t c : Time4) :
    isLater t c = true ↔ packBytes 0 (gateBytes c) < packBytes 0 (gateBytes t) := by
  rw [packBytes_lt_iff (gateBytes t) (gateBytes c) 0 0 rfl, isLater, gateFields_eq_map, gateFields_eq_map]
  simp only [lt_irrefl, true_and, false_or]

/-- Settles O46: the answer bit is `isLater`, which is read field by field, as the packed order, and from the month. -/
theorem validateIsStrictlyLater : Obligations.ValidateIsStrictlyLater := by
  intro s t c
  refine ⟨isLater t c, exec_validate t c s, isLater_iff_fields t c, ?_, fun hmonth => lexGT_cons_of_lt _ _ _ _ hmonth⟩
  rw [← packBytes_gateBytes, ← packBytes_gateBytes]
  exact isLater_iff_packed t c

/-! ### REACHED (R191) -/

theorem exec_reached (target current : Time4) (s : State) :
    exec (.reached target current) s = .next (s.begin.answer (.equal (isReached target current))) := rfl

theorem isReached_self (t : Time4) : isReached t t = true := (isReached_iff t t).mpr ⟨rfl, rfl, rfl, rfl⟩

/-- Settles O47: a time has only the four fields that REACHED compares. -/
theorem reachedIsExactEquality : Obligations.ReachedIsExactEquality := by
  intro s t c
  refine ⟨isReached t c, exec_reached t c s, fun h => (eq_of_isReached t c h).symm, ?_⟩
  rintro rfl
  exact isReached_self t

end Sys2Proof.Machine
end

section
/-! PROOFS. The family 70_reset_and_hazards.md. The RESET operation gives every register the value of R25, from any state
and with no event (R230). -/

namespace Sys2Proof.Machine

open Sys2Proof.Safety

/-! ### RESET (R25, R230) -/

theorem exec_reset (s : State) : exec .reset s = .next s.begin.resetRegisters := rfl

/-- Settles O48: each register is read off the reset registers; the event list is the one the operation begins with. -/
theorem resetOperationClearsEverySpecifiedRegister : Obligations.ResetOperationClearsEverySpecifiedRegister := by
  intro s
  refine ⟨s.begin.resetRegisters, exec_reset s, ?count, fun i => ?cells, ?valid, ?pressed, ?workflow, ?events⟩
  case count => rw [State.resetRegisters_capture]
  case cells => rw [State.resetRegisters_capture, Memory.read_nil]
  case valid => rw [State.resetRegisters_decoder]
  case pressed => rw [State.resetRegisters_mailbox]
  case workflow => exact State.resetRegisters_workflow s.begin
  case events => rw [State.resetRegisters_port, State.begin_port]

end Sys2Proof.Machine
end
